-- ==== Sys2Proof/Word.lean ====
section
/-! DEFINITION. The two word types of the core (00_scope.md R7, R9): a byte (u8) and a 16-bit word (u16). -/

namespace Sys2Proof

/-- u8: a memory cell, or one of A, X, Y, S (00_scope.md R7). -/
abbrev Byte := BitVec 8

/-- u16: an address or the PC (00_scope.md R7). -/
abbrev Word := BitVec 16

end Sys2Proof
end

