-- ==== Sys2Proof/Syntax.lean ====
section
/-! DEFINITION. The instructions of the core: the 52 mnemonics, the four addressing modes and one constructor of
`Instr` for each of the 67 rows of 30_encoding.md R64 (spec/opcode_table.json). -/

namespace Sys2Proof

/-- The 52 mnemonics of 30_encoding.md R64. -/
inductive Mnemonic where
  | lda | ldx | ldy | tax | txa | tay | tya | tsx
  | txs | sta | stx | sty | adc | sbc | and | ora
  | eor | asl | lsr | rol | ror | inx | iny | dex
  | dey | cmp | cpx | cpy | bit | bpl | bmi | bvc
  | bvs | bcc | bcs | bne | beq | jmp | jsr | rts
  | clc | sec | cli | sei | clv | cld | sed | pha
  | pla | php | plp | nop
  deriving DecidableEq, Repr

/-- The addressing modes of 00_scope.md R11. -/
inductive Mode where
  | imm    -- immediate
  | abs    -- absolute
  | rel    -- relative
  | null   -- implied or accumulator, no operand bytes
  deriving DecidableEq, Repr

/-- An instruction with its operand (30_encoding.md R62, R64): an immediate value `v`, an absolute address `ea`, or
the raw offset byte `off` of a branch. The `A` forms of the shifts are the NULL mode, whose target is the accumulator. -/
inductive Instr where
  -- Load, transfer and store (41_load_transfer_store.md)
  | ldaImm (v : Byte)
  | ldaAbs (ea : Word)
  | ldxImm (v : Byte)
  | ldxAbs (ea : Word)
  | ldyImm (v : Byte)
  | ldyAbs (ea : Word)
  | tax
  | txa
  | tay
  | tya
  | tsx
  | txs
  | sta (ea : Word)
  | stx (ea : Word)
  | sty (ea : Word)
  -- Arithmetic (42_arithmetic.md)
  | adcImm (v : Byte)
  | adcAbs (ea : Word)
  | sbcImm (v : Byte)
  | sbcAbs (ea : Word)
  -- Logical and shift (43_logical_shift.md)
  | andImm (v : Byte)
  | andAbs (ea : Word)
  | oraImm (v : Byte)
  | oraAbs (ea : Word)
  | eorImm (v : Byte)
  | eorAbs (ea : Word)
  | aslA
  | aslAbs (ea : Word)
  | lsrA
  | lsrAbs (ea : Word)
  | rolA
  | rolAbs (ea : Word)
  | rorA
  | rorAbs (ea : Word)
  -- Increment, decrement, compare, BIT (44_incdec_compare_bit.md)
  | inx
  | iny
  | dex
  | dey
  | cmpImm (v : Byte)
  | cmpAbs (ea : Word)
  | cpxImm (v : Byte)
  | cpxAbs (ea : Word)
  | cpyImm (v : Byte)
  | cpyAbs (ea : Word)
  | bit (ea : Word)
  -- Branches (45_branch.md)
  | bpl (off : Byte)
  | bmi (off : Byte)
  | bvc (off : Byte)
  | bvs (off : Byte)
  | bcc (off : Byte)
  | bcs (off : Byte)
  | bne (off : Byte)
  | beq (off : Byte)
  -- Jump, call, return (46_jump_call.md)
  | jmp (ea : Word)
  | jsr (ea : Word)
  | rts
  -- Flags, stack, NOP (47_flag_stack_nop.md)
  | clc
  | sec
  | cli
  | sei
  | clv
  | cld
  | sed
  | pha
  | pla
  | php
  | plp
  | nop
  deriving DecidableEq, Repr

/-- The mnemonic column of 30_encoding.md R64. -/
def Instr.mnemonic : Instr → Mnemonic
  | .ldaImm _ => .lda
  | .ldaAbs _ => .lda
  | .ldxImm _ => .ldx
  | .ldxAbs _ => .ldx
  | .ldyImm _ => .ldy
  | .ldyAbs _ => .ldy
  | .tax => .tax
  | .txa => .txa
  | .tay => .tay
  | .tya => .tya
  | .tsx => .tsx
  | .txs => .txs
  | .sta _ => .sta
  | .stx _ => .stx
  | .sty _ => .sty
  | .adcImm _ => .adc
  | .adcAbs _ => .adc
  | .sbcImm _ => .sbc
  | .sbcAbs _ => .sbc
  | .andImm _ => .and
  | .andAbs _ => .and
  | .oraImm _ => .ora
  | .oraAbs _ => .ora
  | .eorImm _ => .eor
  | .eorAbs _ => .eor
  | .aslA => .asl
  | .aslAbs _ => .asl
  | .lsrA => .lsr
  | .lsrAbs _ => .lsr
  | .rolA => .rol
  | .rolAbs _ => .rol
  | .rorA => .ror
  | .rorAbs _ => .ror
  | .inx => .inx
  | .iny => .iny
  | .dex => .dex
  | .dey => .dey
  | .cmpImm _ => .cmp
  | .cmpAbs _ => .cmp
  | .cpxImm _ => .cpx
  | .cpxAbs _ => .cpx
  | .cpyImm _ => .cpy
  | .cpyAbs _ => .cpy
  | .bit _ => .bit
  | .bpl _ => .bpl
  | .bmi _ => .bmi
  | .bvc _ => .bvc
  | .bvs _ => .bvs
  | .bcc _ => .bcc
  | .bcs _ => .bcs
  | .bne _ => .bne
  | .beq _ => .beq
  | .jmp _ => .jmp
  | .jsr _ => .jsr
  | .rts => .rts
  | .clc => .clc
  | .sec => .sec
  | .cli => .cli
  | .sei => .sei
  | .clv => .clv
  | .cld => .cld
  | .sed => .sed
  | .pha => .pha
  | .pla => .pla
  | .php => .php
  | .plp => .plp
  | .nop => .nop

/-- The mode column of 30_encoding.md R64. -/
def Instr.mode : Instr → Mode
  | .ldaImm _ => .imm
  | .ldaAbs _ => .abs
  | .ldxImm _ => .imm
  | .ldxAbs _ => .abs
  | .ldyImm _ => .imm
  | .ldyAbs _ => .abs
  | .tax => .null
  | .txa => .null
  | .tay => .null
  | .tya => .null
  | .tsx => .null
  | .txs => .null
  | .sta _ => .abs
  | .stx _ => .abs
  | .sty _ => .abs
  | .adcImm _ => .imm
  | .adcAbs _ => .abs
  | .sbcImm _ => .imm
  | .sbcAbs _ => .abs
  | .andImm _ => .imm
  | .andAbs _ => .abs
  | .oraImm _ => .imm
  | .oraAbs _ => .abs
  | .eorImm _ => .imm
  | .eorAbs _ => .abs
  | .aslA => .null
  | .aslAbs _ => .abs
  | .lsrA => .null
  | .lsrAbs _ => .abs
  | .rolA => .null
  | .rolAbs _ => .abs
  | .rorA => .null
  | .rorAbs _ => .abs
  | .inx => .null
  | .iny => .null
  | .dex => .null
  | .dey => .null
  | .cmpImm _ => .imm
  | .cmpAbs _ => .abs
  | .cpxImm _ => .imm
  | .cpxAbs _ => .abs
  | .cpyImm _ => .imm
  | .cpyAbs _ => .abs
  | .bit _ => .abs
  | .bpl _ => .rel
  | .bmi _ => .rel
  | .bvc _ => .rel
  | .bvs _ => .rel
  | .bcc _ => .rel
  | .bcs _ => .rel
  | .bne _ => .rel
  | .beq _ => .rel
  | .jmp _ => .abs
  | .jsr _ => .abs
  | .rts => .null
  | .clc => .null
  | .sec => .null
  | .cli => .null
  | .sei => .null
  | .clv => .null
  | .cld => .null
  | .sed => .null
  | .pha => .null
  | .pla => .null
  | .php => .null
  | .plp => .null
  | .nop => .null

end Sys2Proof
end

