-- ==== Sys2Proof/Config.lean ====
section
/-! DEFINITION. What the source fixes (00_scope.md R7) and the types of the parameters it leaves to the model
(00_scope.md R8). The parameters' defaults are in Machine/Params.lean, the default opcode map in Decode.lean. -/

namespace Sys2Proof

/-- 65,536 cells, addresses 0x0000 to 0xFFFF (00_scope.md R7; 20_memory.md R40). -/
def Config.memorySize : Nat := 65536

/-- What every cell holds before the assembler or a program writes it (00_scope.md R7; 10_state.md R37). -/
def Config.memoryFill : Byte := 0xFF

/-- The PC value that means "load PC from the reset vector first" (10_state.md R25). -/
def Config.pcSentinel : Word := 0xFFFE

/-- The cell of the reset vector's low byte (00_scope.md R7). -/
def Config.vectorLow : Word := 0xFFFE

/-- The cell of the reset vector's high byte (00_scope.md R7). -/
def Config.vectorHigh : Word := 0xFFFF

/-- The base of the stack page (00_scope.md R7; 20_memory.md R47). -/
def Config.stackBase : Word := 0x0100

/-- `syntax_error_policy` (00_scope.md R8; 30_encoding.md R98). -/
inductive SyntaxErrorPolicy where
  | skipLine
  | abortPass
  deriving DecidableEq, Repr

/-- `pc_negative_policy` (00_scope.md R8; 40_step_cycle.md R135). -/
inductive PcNegativePolicy where
  | fault
  | sentinel
  | wrap
  deriving DecidableEq, Repr

/-- One row of the opcode map: an opcode byte and the (mnemonic, mode) pair it stands for (30_encoding.md R64). -/
structure OpcodeRow where
  opcode   : Byte
  mnemonic : Mnemonic
  mode     : Mode
  deriving DecidableEq, Repr

/-- `opcode_map`: the table the assembler and the engine share (00_scope.md R8; 30_encoding.md R67). -/
abbrev OpcodeMap := List OpcodeRow

/-- The parameters of 00_scope.md R8. `unrecognisedOpcodeAdvance` is 0 or 1. -/
structure Params where
  syntaxErrorPolicy         : SyntaxErrorPolicy
  unrecognisedOpcodeAdvance : Fin 2
  pcNegativePolicy          : PcNegativePolicy
  plaSetsNz                 : Bool
  opcodeMap                 : OpcodeMap
  deriving DecidableEq, Repr

end Sys2Proof
end

