-- ==== Sys2Proof/WellFormed.lean ====
section
/-! DEFINITION. The checks on the data the model is given: an opcode map must be the kind of table 30_encoding.md R64
and R67 describe, and an instruction is encodable under a map that has its row. The operands of `Instr` carry their
widths in their types, so they need no check. -/

namespace Sys2Proof

/-- The modes each mnemonic has, from the class rules of files 41 to 47 (30_encoding.md R64). -/
def Mnemonic.modes : Mnemonic → List Mode
  | .lda | .ldx | .ldy | .adc | .sbc | .and | .ora | .eor
  | .cmp | .cpx | .cpy =>
      [.imm, .abs]
  | .tax | .txa | .tay | .tya | .tsx | .txs | .inx | .iny
  | .dex | .dey | .rts | .clc | .sec | .cli | .sei | .clv
  | .cld | .sed | .pha | .pla | .php | .plp | .nop =>
      [.null]
  | .sta | .stx | .sty | .bit | .jmp | .jsr =>
      [.abs]
  | .asl | .lsr | .rol | .ror =>
      [.null, .abs]
  | .bpl | .bmi | .bvc | .bvs | .bcc | .bcs | .bne | .beq =>
      [.rel]

/-- The 52 mnemonics, in the order of 30_encoding.md R64. -/
def Mnemonic.all : List Mnemonic :=
  [.lda, .ldx, .ldy, .tax, .txa, .tay, .tya, .tsx, .txs, .sta,
   .stx, .sty, .adc, .sbc, .and, .ora, .eor, .asl, .lsr, .rol,
   .ror, .inx, .iny, .dex, .dey, .cmp, .cpx, .cpy, .bit, .bpl,
   .bmi, .bvc, .bvs, .bcc, .bcs, .bne, .beq, .jmp, .jsr, .rts,
   .clc, .sec, .cli, .sei, .clv, .cld, .sed, .pha, .pla, .php,
   .plp, .nop]

/-- The 67 (mnemonic, mode) pairs of 30_encoding.md R64. -/
def formPairs : List (Mnemonic × Mode) :=
  Mnemonic.all.flatMap fun m => m.modes.map fun k => (m, k)

/-- The pair a row stands for. -/
def OpcodeRow.form (r : OpcodeRow) : Mnemonic × Mode := (r.mnemonic, r.mode)

/-- The row's pair is one of 30_encoding.md R64. -/
def OpcodeRow.wf (r : OpcodeRow) : Bool := decide (r.mode ∈ r.mnemonic.modes)

/-- 30_encoding.md R64 and R67: the opcode values are distinct, every row is one of the 67 pairs, no pair has two
rows, and every pair has a row. DESIGN CHOICE: a map may move JMP off 0x4C, the one value 46_jump_call.md R240 takes from
the source, since 00_scope.md R8 makes the whole map a parameter (log entry 14). -/
def OpcodeMap.wf (m : OpcodeMap) : Bool :=
  decide ((m.map (·.opcode)).Nodup) && m.all (·.wf) && decide ((m.map (·.form)).Nodup) &&
    formPairs.all fun p => decide (p ∈ m.map (·.form))

/-- The instruction has a row in the map, so that the assembler can encode it (30_encoding.md R90). -/
def Instr.wf (m : OpcodeMap) (i : Instr) : Bool := m.any fun r => decide (r.form = (i.mnemonic, i.mode))

/-- The parameters are ones 00_scope.md R8 admits: the other four have no ill-formed value. -/
def Params.wf (p : Params) : Bool := OpcodeMap.wf p.opcodeMap

end Sys2Proof
end

