-- ==== Sys2Proof/Decode.lean ====
section
/-! DEFINITION. The machine encoding (30_encoding.md Part A): the default opcode map, field assembly, the decoder
(total on any bytes, rejecting by name) and the encoder, which share one table (30_encoding.md R67). -/

namespace Sys2Proof

/-- 30_encoding.md R64, rows of 41_load_transfer_store.md. -/
def loadStoreRows : OpcodeMap :=
  [⟨0xA9, .lda, .imm⟩,
   ⟨0xAD, .lda, .abs⟩,
   ⟨0xA2, .ldx, .imm⟩,
   ⟨0xAE, .ldx, .abs⟩,
   ⟨0xA0, .ldy, .imm⟩,
   ⟨0xAC, .ldy, .abs⟩,
   ⟨0xAA, .tax, .null⟩,
   ⟨0x8A, .txa, .null⟩,
   ⟨0xA8, .tay, .null⟩,
   ⟨0x98, .tya, .null⟩,
   ⟨0xBA, .tsx, .null⟩,
   ⟨0x9A, .txs, .null⟩,
   ⟨0x8D, .sta, .abs⟩,
   ⟨0x8E, .stx, .abs⟩,
   ⟨0x8C, .sty, .abs⟩]

/-- 30_encoding.md R64, rows of 42_arithmetic.md. -/
def arithmeticRows : OpcodeMap :=
  [⟨0x69, .adc, .imm⟩,
   ⟨0x6D, .adc, .abs⟩,
   ⟨0xE9, .sbc, .imm⟩,
   ⟨0xED, .sbc, .abs⟩]

/-- 30_encoding.md R64, rows of 43_logical_shift.md. -/
def logicalShiftRows : OpcodeMap :=
  [⟨0x29, .and, .imm⟩,
   ⟨0x2D, .and, .abs⟩,
   ⟨0x09, .ora, .imm⟩,
   ⟨0x0D, .ora, .abs⟩,
   ⟨0x49, .eor, .imm⟩,
   ⟨0x4D, .eor, .abs⟩,
   ⟨0x0A, .asl, .null⟩,
   ⟨0x0E, .asl, .abs⟩,
   ⟨0x4A, .lsr, .null⟩,
   ⟨0x4E, .lsr, .abs⟩,
   ⟨0x2A, .rol, .null⟩,
   ⟨0x2E, .rol, .abs⟩,
   ⟨0x6A, .ror, .null⟩,
   ⟨0x6E, .ror, .abs⟩]

/-- 30_encoding.md R64, rows of 44_incdec_compare_bit.md. -/
def incCompareRows : OpcodeMap :=
  [⟨0xE8, .inx, .null⟩,
   ⟨0xC8, .iny, .null⟩,
   ⟨0xCA, .dex, .null⟩,
   ⟨0x88, .dey, .null⟩,
   ⟨0xC9, .cmp, .imm⟩,
   ⟨0xCD, .cmp, .abs⟩,
   ⟨0xE0, .cpx, .imm⟩,
   ⟨0xEC, .cpx, .abs⟩,
   ⟨0xC0, .cpy, .imm⟩,
   ⟨0xCC, .cpy, .abs⟩,
   ⟨0x2C, .bit, .abs⟩]

/-- 30_encoding.md R64, rows of 45_branch.md. -/
def branchRows : OpcodeMap :=
  [⟨0x10, .bpl, .rel⟩,
   ⟨0x30, .bmi, .rel⟩,
   ⟨0x50, .bvc, .rel⟩,
   ⟨0x70, .bvs, .rel⟩,
   ⟨0x90, .bcc, .rel⟩,
   ⟨0xB0, .bcs, .rel⟩,
   ⟨0xD0, .bne, .rel⟩,
   ⟨0xF0, .beq, .rel⟩]

/-- 30_encoding.md R64, rows of 46_jump_call.md. -/
def jumpRows : OpcodeMap :=
  [⟨0x4C, .jmp, .abs⟩,
   ⟨0x20, .jsr, .abs⟩,
   ⟨0x60, .rts, .null⟩]

/-- 30_encoding.md R64, rows of 47_flag_stack_nop.md. -/
def flagStackRows : OpcodeMap :=
  [⟨0x18, .clc, .null⟩,
   ⟨0x38, .sec, .null⟩,
   ⟨0x58, .cli, .null⟩,
   ⟨0x78, .sei, .null⟩,
   ⟨0xB8, .clv, .null⟩,
   ⟨0xD8, .cld, .null⟩,
   ⟨0xF8, .sed, .null⟩,
   ⟨0x48, .pha, .null⟩,
   ⟨0x68, .pla, .null⟩,
   ⟨0x08, .php, .null⟩,
   ⟨0x28, .plp, .null⟩,
   ⟨0xEA, .nop, .null⟩]

/-- The default of `opcode_map` (00_scope.md R8; 30_encoding.md R64). PRESUMED by the spec itself for every value but
0x4C: the NMOS 6502 values, which the source does not give (log entry 3). -/
def defaultOpcodeMap : OpcodeMap :=
  loadStoreRows ++ arithmeticRows ++ logicalShiftRows ++ incCompareRows ++
    branchRows ++ jumpRows ++ flagStackRows

/-- 30_encoding.md R60: the length in bytes is fixed by the mode. -/
def Mode.length : Mode → Nat
  | .null => 1
  | .imm | .rel => 2
  | .abs => 3

/-- The length of an instruction (30_encoding.md R60, R63). -/
def Instr.length (i : Instr) : Nat := i.mode.length

/-- `Word(lo, hi)`: little-endian (20_memory.md R43; 00_scope.md R10). -/
def wordOf (lo hi : Byte) : Word := hi ++ lo

/-- The low byte of a word (20_memory.md R43). -/
def lowByte (w : Word) : Byte := w.extractLsb' 0 8

/-- The high byte of a word (20_memory.md R43). -/
def highByte (w : Word) : Byte := w.extractLsb' 8 8

/-- The operand bytes after the opcode (30_encoding.md R61). -/
def Instr.operandBytes : Instr → List Byte
  | .ldaImm v | .ldxImm v | .ldyImm v | .adcImm v | .sbcImm v | .andImm v
  | .oraImm v | .eorImm v | .cmpImm v | .cpxImm v | .cpyImm v => [v]
  | .bpl off | .bmi off | .bvc off | .bvs off | .bcc off | .bcs off
  | .bne off | .beq off => [off]
  | .ldaAbs ea | .ldxAbs ea | .ldyAbs ea | .sta ea | .stx ea | .sty ea
  | .adcAbs ea | .sbcAbs ea | .andAbs ea | .oraAbs ea | .eorAbs ea | .aslAbs ea
  | .lsrAbs ea | .rolAbs ea | .rorAbs ea | .cmpAbs ea | .cpxAbs ea | .cpyAbs ea
  | .bit ea | .jmp ea | .jsr ea => [lowByte ea, highByte ea]
  | .tax | .txa | .tay | .tya | .tsx | .txs | .aslA | .lsrA | .rolA | .rorA
  | .inx | .iny | .dex | .dey | .rts | .clc | .sec | .cli | .sei | .clv
  | .cld | .sed | .pha | .pla | .php | .plp | .nop => []

/-- The instruction of a (mnemonic, mode) pair with the two fetched operand bytes (30_encoding.md R62); none for a pair
that 30_encoding.md R64 does not list. -/
def Instr.ofForm (m : Mnemonic) (k : Mode) (b1 b2 : Byte) : Option Instr :=
  match m, k with
  | .lda, .imm => some (.ldaImm b1)
  | .lda, .abs => some (.ldaAbs (wordOf b1 b2))
  | .ldx, .imm => some (.ldxImm b1)
  | .ldx, .abs => some (.ldxAbs (wordOf b1 b2))
  | .ldy, .imm => some (.ldyImm b1)
  | .ldy, .abs => some (.ldyAbs (wordOf b1 b2))
  | .tax, .null => some .tax
  | .txa, .null => some .txa
  | .tay, .null => some .tay
  | .tya, .null => some .tya
  | .tsx, .null => some .tsx
  | .txs, .null => some .txs
  | .sta, .abs => some (.sta (wordOf b1 b2))
  | .stx, .abs => some (.stx (wordOf b1 b2))
  | .sty, .abs => some (.sty (wordOf b1 b2))
  | .adc, .imm => some (.adcImm b1)
  | .adc, .abs => some (.adcAbs (wordOf b1 b2))
  | .sbc, .imm => some (.sbcImm b1)
  | .sbc, .abs => some (.sbcAbs (wordOf b1 b2))
  | .and, .imm => some (.andImm b1)
  | .and, .abs => some (.andAbs (wordOf b1 b2))
  | .ora, .imm => some (.oraImm b1)
  | .ora, .abs => some (.oraAbs (wordOf b1 b2))
  | .eor, .imm => some (.eorImm b1)
  | .eor, .abs => some (.eorAbs (wordOf b1 b2))
  | .asl, .null => some .aslA
  | .asl, .abs => some (.aslAbs (wordOf b1 b2))
  | .lsr, .null => some .lsrA
  | .lsr, .abs => some (.lsrAbs (wordOf b1 b2))
  | .rol, .null => some .rolA
  | .rol, .abs => some (.rolAbs (wordOf b1 b2))
  | .ror, .null => some .rorA
  | .ror, .abs => some (.rorAbs (wordOf b1 b2))
  | .inx, .null => some .inx
  | .iny, .null => some .iny
  | .dex, .null => some .dex
  | .dey, .null => some .dey
  | .cmp, .imm => some (.cmpImm b1)
  | .cmp, .abs => some (.cmpAbs (wordOf b1 b2))
  | .cpx, .imm => some (.cpxImm b1)
  | .cpx, .abs => some (.cpxAbs (wordOf b1 b2))
  | .cpy, .imm => some (.cpyImm b1)
  | .cpy, .abs => some (.cpyAbs (wordOf b1 b2))
  | .bit, .abs => some (.bit (wordOf b1 b2))
  | .bpl, .rel => some (.bpl b1)
  | .bmi, .rel => some (.bmi b1)
  | .bvc, .rel => some (.bvc b1)
  | .bvs, .rel => some (.bvs b1)
  | .bcc, .rel => some (.bcc b1)
  | .bcs, .rel => some (.bcs b1)
  | .bne, .rel => some (.bne b1)
  | .beq, .rel => some (.beq b1)
  | .jmp, .abs => some (.jmp (wordOf b1 b2))
  | .jsr, .abs => some (.jsr (wordOf b1 b2))
  | .rts, .null => some .rts
  | .clc, .null => some .clc
  | .sec, .null => some .sec
  | .cli, .null => some .cli
  | .sei, .null => some .sei
  | .clv, .null => some .clv
  | .cld, .null => some .cld
  | .sed, .null => some .sed
  | .pha, .null => some .pha
  | .pla, .null => some .pla
  | .php, .null => some .php
  | .plp, .null => some .plp
  | .nop, .null => some .nop
  | _, _ => none

/-- Why bytes are not an instruction. -/
inductive DecodeError where
  /-- The opcode byte has no row in the map (30_encoding.md R65). -/
  | unrecognised (opcode : Byte)
  /-- The byte's row names a pair outside 30_encoding.md R64; no well-formed map has such a row (log entry 5). -/
  | foreignRow (opcode : Byte)
  /-- A byte list ends inside the instruction; the engine never meets this (20_memory.md R49). -/
  | truncated (opcode : Byte)
  /-- An empty byte list. -/
  | noBytes
  deriving DecidableEq, Repr

/-- The row of an opcode byte (40_step_cycle.md R133). -/
def OpcodeMap.rowOf (m : OpcodeMap) (op : Byte) : Option OpcodeRow := m.find? fun r => r.opcode == op

/-- The row of a (mnemonic, mode) pair (30_encoding.md R90). -/
def OpcodeMap.rowFor (m : OpcodeMap) (mn : Mnemonic) (k : Mode) : Option OpcodeRow :=
  m.find? fun r => r.mnemonic == mn && r.mode == k

/-- 40_step_cycle.md R133: the instruction of the three fetched bytes. -/
def decode (m : OpcodeMap) (op b1 b2 : Byte) : Except DecodeError Instr :=
  match m.rowOf op with
  | none => .error (.unrecognised op)
  | some r =>
    match Instr.ofForm r.mnemonic r.mode b1 b2 with
    | none => .error (.foreignRow op)
    | some i => .ok i

/-- The instruction at the head of a byte list and the bytes after it. -/
def decodeBytes (m : OpcodeMap) : List Byte → Except DecodeError (Instr × List Byte)
  | [] => .error .noBytes
  | op :: rest =>
    match decode m op (rest.headD 0) (rest.tail.headD 0) with
    | .error e => .error e
    | .ok i =>
      if rest.length + 1 < i.length then .error (.truncated op) else .ok (i, rest.drop (i.length - 1))

/-- 30_encoding.md R67, R91: the bytes of an instruction; none when the map has no row for it. -/
def encode (m : OpcodeMap) (i : Instr) : Option (List Byte) :=
  (m.rowFor i.mnemonic i.mode).map fun r => r.opcode :: i.operandBytes

/-- The instruction that the default map's decoder reads from `nbits` bits `w`, byte 0 being bits 7 to 0: the
instruction's bytes in address order, the bits above `nbits` zero. -/
def decodeTableWord (nbits w : Nat) : Option Instr :=
  let v := w % 2 ^ nbits
  match decode defaultOpcodeMap (BitVec.ofNat 8 v) (BitVec.ofNat 8 (v / 256)) (BitVec.ofNat 8 (v / 65536)) with
  | .ok i => some i
  | .error _ => none

end Sys2Proof
end

