-- ==== Sys2Proof/Machine/Params.lean ====
section
/-! DEFINITION. The defaults of the five parameters of 00_scope.md R8. -/

namespace Sys2Proof.Machine

/-- The default of every parameter, as 00_scope.md R8 states it (92_eei_decisions.md D1, D4, D5, D7, D22). -/
def defaultParams : Params :=
  { syntaxErrorPolicy := .skipLine
    unrecognisedOpcodeAdvance := 0
    pcNegativePolicy := .fault
    plaSetsNz := false
    opcodeMap := defaultOpcodeMap }

end Sys2Proof.Machine
end

