-- ==== Sys2Proof/Machine/State.lean ====
section
/-! DEFINITION. The state of the core (10_state.md), the reasons a step or an assembly can stop, and the state after
reset. Everything 10_state.md gives the machine is here: A, X, Y, S, PC, the eight flags, the memory and the assembler's
cursor, label table and patch list. `params` is the model's own field: the parameters 00_scope.md R8 says the model takes
as an argument (log entry 1). -/

namespace Sys2Proof.Machine

/-- The eight flags, from bit 7 to bit 0 of the status byte (10_state.md R27). -/
structure Flags where
  n  : Bool
  v  : Bool
  bh : Bool
  bl : Bool
  d  : Bool
  i  : Bool
  z  : Bool
  c  : Bool
  deriving DecidableEq, Repr

/-- The memory of 20_memory.md R40: the cells that do not hold the fill value, by rising address (log entry 2). A cell
that is not listed holds `Config.memoryFill`. -/
structure Memory where
  cells : List Host.Cell
  deriving DecidableEq, Repr

/-- A run of text: a source, a line, a name. -/
abbrev Text := List Char

/-- A pending patch (10_state.md R36). `origin` is the field the spec calls `from`: the address the branch offset is
measured from. -/
inductive Patch where
  | absolute (lo hi : Nat)
  | relative (loc origin : Nat)
  deriving DecidableEq, Repr

/-- The assembler's state (10_state.md R35). `patches` lists the pending patches of every undefined label in the order
they were registered, each with its label. -/
structure AsmState where
  cursor  : Nat
  labels  : List (Text × Word)
  patches : List (Text × Patch)
  deriving DecidableEq, Repr

/-- The state of the core (10_state.md). -/
structure State where
  a      : Byte
  x      : Byte
  y      : Byte
  s      : Byte
  pc     : Word
  flags  : Flags
  mem    : Memory
  asm    : AsmState
  params : Params
  deriving DecidableEq, Repr

/-- The four 8-bit registers (10_state.md R20 to R23). -/
inductive Reg where
  | a
  | x
  | y
  | s
  deriving DecidableEq, Repr

/-- The model faults of 60_exceptions.md R272. Neither is a trap. -/
inductive Fault where
  /-- Raised by `State.finish` when a taken branch computes a next PC below 0 under `pc_negative_policy = fault`
  (40_step_cycle.md R135). Safe: the spec's own stop. -/
  | pcOutOfRange
  /-- Raised by `assemble` when a line would write, or define a label, above 0xFFFF (30_encoding.md R95); no step raises
  it. Safe: the spec's own stop. -/
  | invalidAddress
  deriving DecidableEq, Repr

/-- Reasons to have no meaning for an instruction. No instruction of this core has one. -/
inductive Refusal where
  /-- Raised by an arm of `exec` whose instruction has no meaning yet. Safe: the machine stops. No arm raises it. -/
  | notModelled (mnemonic : String)
  deriving DecidableEq, Repr

/-- What a step answers (Host/Core.lean). -/
abbrev Result := Host.Outcome State Fault Refusal

/-- Every flag false (10_state.md R37). -/
def Flags.clear : Flags :=
  { n := false, v := false, bh := false, bl := false, d := false, i := false, z := false, c := false }

/-- The assembler's state at the start of an assembly, and between assemblies (10_state.md R35, R37). -/
def AsmState.start : AsmState := { cursor := 0, labels := [], patches := [] }

/-- `reset()` under given parameters (70_reset_and_hazards.md R290; 10_state.md R37). -/
def State.resetWith (p : Params) : State :=
  { a := 0, x := 0, y := 0, s := 0
    pc := Config.pcSentinel
    flags := Flags.clear
    mem := { cells := [] }
    asm := AsmState.start
    params := p }

/-- The machine right after reset, and before its first assembly (10_state.md R37, R38), with the default parameters. -/
def State.reset : State := State.resetWith defaultParams

end Sys2Proof.Machine
end

