-- ==== Sys2Proof/Machine/Ops.lean ====
section
/-! DEFINITION. The named operations over registers, memory, the stack and the PC. The core has no exception entry and no
exception return (60_exceptions.md R270, R275, R276), so there is none here: the only redirection through a vector is the
handshake of 40_step_cycle.md R131. -/

namespace Sys2Proof.Machine

-- Memory (20_memory.md)

/-- The first listed value at an address, else the fill value. -/
def readCells : List Host.Cell → Nat → Byte
  | [], _ => Config.memoryFill
  | (k, v) :: rest, a => if k = a then v else readCells rest a

/-- The cells without any entry at an address. -/
def eraseCell (a : Nat) : List Host.Cell → List Host.Cell
  | [] => []
  | (k, v) :: rest => if k = a then eraseCell a rest else (k, v) :: eraseCell a rest

/-- The cells with an entry put in at its place among rising addresses. -/
def insertCell (a : Nat) (v : Byte) : List Host.Cell → List Host.Cell
  | [] => [(a, v)]
  | (k, w) :: rest => if k < a then (k, w) :: insertCell a v rest else (a, v) :: (k, w) :: rest

/-- The cell at an address (20_memory.md R41). -/
def Memory.read (m : Memory) (a : Nat) : Byte := readCells m.cells a

/-- Store a byte in a cell (20_memory.md R41), keeping the canonical form: a cell that comes to hold the fill value is
not listed. -/
def Memory.write (m : Memory) (a : Nat) (v : Byte) : Memory :=
  { cells := if v = Config.memoryFill then eraseCell a m.cells else insertCell a v (eraseCell a m.cells) }

/-- The canonical form: addresses strictly rising and inside the 65,536 cells, no entry equal to the fill value. -/
abbrev Memory.wf (m : Memory) : Prop :=
  m.cells.Pairwise (fun p q => p.1 < q.1) ∧ ∀ p ∈ m.cells, p.1 < Config.memorySize ∧ p.2 ≠ Config.memoryFill

/-- The memory image the host sees: 65,536 bytes (70_reset_and_hazards.md R296). -/
def Memory.image (m : Memory) : List Byte := (List.range Config.memorySize).map m.read

-- Registers: one home each (10_state.md R20 to R24, R27)

/-- The value of an 8-bit register. -/
def State.reg (s : State) : Reg → Byte
  | .a => s.a
  | .x => s.x
  | .y => s.y
  | .s => s.s

/-- `R <- v` for an 8-bit register (10_state.md R23). -/
def State.setReg (s : State) (r : Reg) (v : Byte) : State :=
  match r with
  | .a => { s with a := v }
  | .x => { s with x := v }
  | .y => { s with y := v }
  | .s => { s with s := v }

/-- `PC <- w` (10_state.md R24). -/
def State.setPc (s : State) (w : Word) : State := { s with pc := w }

/-- Replace the flags (10_state.md R27). -/
def State.setFlags (s : State) (f : Flags) : State := { s with flags := f }

/-- Replace the assembler's state (10_state.md R35). -/
def State.setAsm (s : State) (p : AsmState) : State := { s with asm := p }

-- Memory through the state

/-- `MemRead(a, 1)` (20_memory.md R41). -/
def State.memRead (s : State) (a : Word) : Byte := s.mem.read a.toNat

/-- `MemWrite(a, 1, v)` (20_memory.md R41). -/
def State.memWrite (s : State) (a : Word) (v : Byte) : State := { s with mem := s.mem.write a.toNat v }

/-- `FetchByte(a)`: 0 past the end of memory, with no wrap (20_memory.md R49). -/
def State.fetchByte (s : State) (a : Nat) : Byte := if a < Config.memorySize then s.mem.read a else 0

-- Stack (20_memory.md R55 to R57)

/-- The stack cell a stack pointer designates: 0x0100 + S (10_state.md R22). -/
def stackAddr (sp : Byte) : Word := Config.stackBase + sp.setWidth 16

/-- `Push(v)`: write at S, then decrement S modulo 256 (20_memory.md R55, R57). -/
def State.push (s : State) (v : Byte) : State := (s.memWrite (stackAddr s.s) v).setReg .s (s.s - 1)

/-- `Pull()`, the state part: increment S modulo 256 (20_memory.md R56, R57). -/
def State.pulled (s : State) : State := s.setReg .s (s.s + 1)

/-- `Pull()`, the value part: the cell at the incremented S (20_memory.md R56). -/
def State.pulledByte (s : State) : Byte := s.memRead (stackAddr (s.s + 1))

-- PC (40_step_cycle.md)

/-- 40_step_cycle.md R131: at the start of a step, a PC that is the sentinel is loaded from the reset vector, once. -/
def State.handshake (s : State) : State :=
  if s.pc = Config.pcSentinel then
    s.setPc (wordOf (s.memRead Config.vectorLow) (s.memRead Config.vectorHigh))
  else s

/-- 40_step_cycle.md R135: the step's last action turns the provisional next PC into the PC. -/
def State.finish (s : State) (npc : Int) : Result :=
  if (Config.memorySize : Int) ≤ npc then .next (s.setPc Config.pcSentinel)
  else if npc < 0 then
    match s.params.pcNegativePolicy with
    | .fault => .fault .pcOutOfRange
    | .sentinel => .next (s.setPc Config.pcSentinel)
    | .wrap => .next (s.setPc (BitVec.ofInt 16 npc))
  else .next (s.setPc (BitVec.ofInt 16 npc))

/-- Finish a sequential instruction of a given length: `npc = p + L` (40_step_cycle.md R134). The PC still holds `p`. -/
def State.advance (s : State) (len : Nat) : Result := s.finish ((s.pc.toNat : Int) + len)

/-- 40_step_cycle.md R136: at an unrecognised opcode nothing is written and `npc = p + unrecognised_opcode_advance`. -/
def State.skipUnrecognised (s : State) : Result := s.advance s.params.unrecognisedOpcodeAdvance.val

/-- The opcode byte and the two operand bytes at the PC (40_step_cycle.md R132). -/
def State.fetch (s : State) : Byte × Byte × Byte :=
  (s.memRead s.pc, s.fetchByte (s.pc.toNat + 1), s.fetchByte (s.pc.toNat + 2))

/-- Fetch and decode at the PC with the machine's opcode map (40_step_cycle.md R132, R133). -/
def State.decodeAtPc (s : State) : Except DecodeError Instr :=
  decode s.params.opcodeMap s.fetch.1 s.fetch.2.1 s.fetch.2.2

end Sys2Proof.Machine
end

