-- ==== Sys2Proof/Machine/Flags.lean ====
section
/-! DEFINITION. Every flag computation of the spec: SetNZ, the packed status byte, decimal operand reinterpretation, the
arithmetic and compare flags, the shifts' carry and BIT. -/

namespace Sys2Proof.Machine

/-- `SetNZ(v)` on the flags: Z is v = 0, N is v > 0x7F (40_step_cycle.md R139). -/
def Flags.setNZ (f : Flags) (v : Byte) : Flags := { f with z := decide (v = 0), n := decide (0x7F < v.toNat) }

/-- `SetNZ(v)` (40_step_cycle.md R139). -/
def State.setNZ (s : State) (v : Byte) : State := s.setFlags (s.flags.setNZ v)

/-- `Pack()`: N V BH BL D I Z C from bit 7 to bit 0 (10_state.md R27). -/
def Flags.pack (f : Flags) : Byte :=
  BitVec.ofNat 8 (f.n.toNat * 128 + f.v.toNat * 64 + f.bh.toNat * 32 + f.bl.toNat * 16 + f.d.toNat * 8 +
    f.i.toNat * 4 + f.z.toNat * 2 + f.c.toNat)

/-- `Unpack(b)`: every flag from its bit (10_state.md R28). -/
def Flags.unpack (b : Byte) : Flags :=
  { n := b.getLsbD 7, v := b.getLsbD 6, bh := b.getLsbD 5, bl := b.getLsbD 4
    d := b.getLsbD 3, i := b.getLsbD 2, z := b.getLsbD 1, c := b.getLsbD 0 }

/-- `Dec(m)`: with D set, each hex digit of the operand counts as a base-10 digit (42_arithmetic.md R180). -/
def decimalOperand (d : Bool) (m : Byte) : Byte :=
  if d then BitVec.ofNat 8 (m.toNat / 16 * 10 + m.toNat % 16) else m

/-- The overflow heuristic: set when bit 7 of the (reinterpreted) operand equals bit 7 of the result
(42_arithmetic.md R181). -/
def overflowHeuristic (m' result : Byte) : Bool := decide ((m' ^^^ result) &&& 0x80 = 0)

/-- The unbounded sum of ADC (42_arithmetic.md R182). -/
def adcSum (f : Flags) (acc m : Byte) : Nat := acc.toNat + (decimalOperand f.d m).toNat + f.c.toNat

/-- ADC's new accumulator (42_arithmetic.md R182). -/
def adcResult (f : Flags) (acc m : Byte) : Byte := BitVec.ofNat 8 (adcSum f acc m)

/-- ADC's flags: C is a sum above 0xFF, then SetNZ of the result, V by the heuristic (42_arithmetic.md R181, R182). -/
def adcFlags (f : Flags) (acc m : Byte) : Flags :=
  { f.setNZ (adcResult f acc m) with
    c := decide (0xFF < adcSum f acc m)
    v := overflowHeuristic (decimalOperand f.d m) (adcResult f acc m) }

/-- The unbounded difference of SBC, which subtracts "not carry" (42_arithmetic.md R183). -/
def sbcDifference (f : Flags) (acc m : Byte) : Int :=
  (acc.toNat : Int) - ((decimalOperand f.d m).toNat : Int) - ((!f.c).toNat : Int)

/-- SBC's new accumulator: the difference modulo 256 (42_arithmetic.md R183). -/
def sbcResult (f : Flags) (acc m : Byte) : Byte := BitVec.ofInt 8 (sbcDifference f acc m)

/-- SBC's flags: C is "a borrow occurred" (42_arithmetic.md R181, R183; 10_state.md R32). -/
def sbcFlags (f : Flags) (acc m : Byte) : Flags :=
  { f.setNZ (sbcResult f acc m) with
    c := decide (sbcDifference f acc m < 0)
    v := overflowHeuristic (decimalOperand f.d m) (sbcResult f acc m) }

/-- The compare flags: C is R < m unsigned, N and Z from the normalised difference (44_incdec_compare_bit.md R215). -/
def compareFlags (f : Flags) (r m : Byte) : Flags := { f.setNZ (r - m) with c := decide (r.toNat < m.toNat) }

/-- BIT: Z from A and the cell, N and V from the cell's bits 7 and 6 (44_incdec_compare_bit.md R219). -/
def bitFlags (f : Flags) (acc m : Byte) : Flags :=
  { f with z := decide (acc &&& m = 0), n := m.getLsbD 7, v := m.getLsbD 6 }

/-- ASL: the shifted byte and the bit shifted out (43_logical_shift.md R195). -/
def aslOf (_c : Bool) (v : Byte) : Byte × Bool := (v <<< 1, v.getLsbD 7)

/-- LSR: the shifted byte and the bit shifted out (43_logical_shift.md R196). -/
def lsrOf (_c : Bool) (v : Byte) : Byte × Bool := (v >>> 1, v.getLsbD 0)

/-- ROL: the prior carry enters at bit 0 (43_logical_shift.md R197). -/
def rolOf (c : Bool) (v : Byte) : Byte × Bool := (v <<< 1 ||| BitVec.ofNat 8 c.toNat, v.getLsbD 7)

/-- ROR: the prior carry enters at bit 7 (43_logical_shift.md R198). -/
def rorOf (c : Bool) (v : Byte) : Byte × Bool := (v >>> 1 ||| BitVec.ofNat 8 (c.toNat * 128), v.getLsbD 0)

/-- The shifts' flags: C is the bit shifted out, then SetNZ of the result (43_logical_shift.md R194). -/
def shiftFlags (f : Flags) (p : Byte × Bool) : Flags := { f.setNZ p.1 with c := p.2 }

end Sys2Proof.Machine
end

