-- ==== Sys2Proof/Machine/Operands.lean ====
section
/-! DEFINITION. The operand forms (30_encoding.md R62; 40_step_cycle.md R137) and the shared shapes of the instruction
classes over them. An IMM operand is the byte itself, an ABS operand the cell at its address, a REL operand a signed
offset; `len` is the instruction's length (30_encoding.md R60). -/

namespace Sys2Proof.Machine

/-- `OperandABS`: the cell at the effective address (40_step_cycle.md R137). -/
def State.absOperand (s : State) (ea : Word) : Byte := s.memRead ea

/-- `sext_8(b)`: values from 0x80 up mean value - 256 (00_scope.md R9; 30_encoding.md R62). -/
def signedOffset (b : Byte) : Int := if b.toNat < 0x80 then (b.toNat : Int) else (b.toNat : Int) - 256

/-- Write a register and set N and Z from the value (41_load_transfer_store.md R150; 43_logical_shift.md R190). -/
def State.putNZ (s : State) (r : Reg) (v : Byte) : State := (s.setReg r v).setNZ v

/-- Load class: the value into a register (41_load_transfer_store.md R150). -/
def load (r : Reg) (v : Byte) (len : Nat) (s : State) : Result := (s.putNZ r v).advance len

/-- Transfer class: one register into another (41_load_transfer_store.md R150). -/
def transfer (src dst : Reg) (s : State) : Result := load dst (s.reg src) 1 s

/-- Store class: a register to the absolute address, no flag (41_load_transfer_store.md R160). -/
def store (r : Reg) (ea : Word) (s : State) : Result := (s.memWrite ea (s.reg r)).advance 3

/-- ADC on an operand value (42_arithmetic.md R182). -/
def adc (m : Byte) (len : Nat) (s : State) : Result :=
  ((s.setReg .a (adcResult s.flags s.a m)).setFlags (adcFlags s.flags s.a m)).advance len

/-- SBC on an operand value (42_arithmetic.md R183). -/
def sbc (m : Byte) (len : Nat) (s : State) : Result :=
  ((s.setReg .a (sbcResult s.flags s.a m)).setFlags (sbcFlags s.flags s.a m)).advance len

/-- Logical class: the result into A with N and Z (43_logical_shift.md R190). -/
def logical (result : Byte) (len : Nat) (s : State) : Result := load .a result len s

/-- Shift class, accumulator target (43_logical_shift.md R194). -/
def shiftAcc (op : Bool → Byte → Byte × Bool) (s : State) : Result :=
  let p := op s.flags.c s.a
  ((s.setReg .a p.1).setFlags (shiftFlags s.flags p)).advance 1

/-- Shift class, absolute target: the cell is read once, then written once (43_logical_shift.md R194). -/
def shiftMem (op : Bool → Byte → Byte × Bool) (ea : Word) (s : State) : Result :=
  let p := op s.flags.c (s.memRead ea)
  ((s.memWrite ea p.1).setFlags (shiftFlags s.flags p)).advance 3

/-- Increment and decrement class: a register plus 1 or plus -1 modulo 256 (44_incdec_compare_bit.md R210). -/
def step8 (r : Reg) (delta : Byte) (s : State) : Result := load r (s.reg r + delta) 1 s

/-- Compare class (44_incdec_compare_bit.md R215). -/
def compareReg (r : Reg) (m : Byte) (len : Nat) (s : State) : Result :=
  (s.setFlags (compareFlags s.flags (s.reg r) m)).advance len

/-- Branch class (45_branch.md R230): `npc = p + 2`, plus the signed offset when the condition holds. -/
def branch (cond : Bool) (off : Byte) (s : State) : Result :=
  s.finish (if cond then (s.pc.toNat : Int) + 2 + signedOffset off else (s.pc.toNat : Int) + 2)

/-- Flag class: replace the flags (47_flag_stack_nop.md R250). -/
def putFlags (f : Flags) (s : State) : Result := (s.setFlags f).advance 1

end Sys2Proof.Machine
end

