-- ==== Sys2Proof/Machine/Arith.lean ====
section
/-! DEFINITION. ADC and SBC (42_arithmetic.md): a meaning for each row. -/

namespace Sys2Proof.Machine

/-- ADC immediate (42_arithmetic.md R182). -/
def execAdcImm (v : Byte) (s : State) : Result := adc v 2 s

/-- ADC absolute (42_arithmetic.md R182). -/
def execAdcAbs (ea : Word) (s : State) : Result := adc (s.absOperand ea) 3 s

/-- SBC immediate (42_arithmetic.md R183). -/
def execSbcImm (v : Byte) (s : State) : Result := sbc v 2 s

/-- SBC absolute (42_arithmetic.md R183). -/
def execSbcAbs (ea : Word) (s : State) : Result := sbc (s.absOperand ea) 3 s

end Sys2Proof.Machine
end

