-- ==== Sys2Proof/Machine/Branch.lean ====
section
/-! DEFINITION. The conditional branches (45_branch.md): a meaning for each row. -/

namespace Sys2Proof.Machine

/-- BPL: branch if N clear (45_branch.md R231). -/
def execBpl (off : Byte) (s : State) : Result := branch (!s.flags.n) off s

/-- BMI: branch if N set (45_branch.md R232). -/
def execBmi (off : Byte) (s : State) : Result := branch s.flags.n off s

/-- BVC: branch if V clear (45_branch.md R233). -/
def execBvc (off : Byte) (s : State) : Result := branch (!s.flags.v) off s

/-- BVS: branch if V set (45_branch.md R234). -/
def execBvs (off : Byte) (s : State) : Result := branch s.flags.v off s

/-- BCC: branch if C clear (45_branch.md R235). -/
def execBcc (off : Byte) (s : State) : Result := branch (!s.flags.c) off s

/-- BCS: branch if C set (45_branch.md R236). -/
def execBcs (off : Byte) (s : State) : Result := branch s.flags.c off s

/-- BNE: branch if Z clear (45_branch.md R237). -/
def execBne (off : Byte) (s : State) : Result := branch (!s.flags.z) off s

/-- BEQ: branch if Z set (45_branch.md R238). -/
def execBeq (off : Byte) (s : State) : Result := branch s.flags.z off s

end Sys2Proof.Machine
end

