-- ==== Sys2Proof/Machine/FlagStack.lean ====
section
/-! DEFINITION. Flag control, stack and NOP (47_flag_stack_nop.md): a meaning for each row. -/

namespace Sys2Proof.Machine

/-- CLC: clear the carry flag (47_flag_stack_nop.md R251). -/
def execClc (s : State) : Result := putFlags { s.flags with c := false } s

/-- SEC: set the carry flag (47_flag_stack_nop.md R252). -/
def execSec (s : State) : Result := putFlags { s.flags with c := true } s

/-- CLI: clear the interrupt flag (47_flag_stack_nop.md R253). -/
def execCli (s : State) : Result := putFlags { s.flags with i := false } s

/-- SEI: set the interrupt flag (47_flag_stack_nop.md R254). -/
def execSei (s : State) : Result := putFlags { s.flags with i := true } s

/-- CLV: clear the overflow flag (47_flag_stack_nop.md R255). -/
def execClv (s : State) : Result := putFlags { s.flags with v := false } s

/-- CLD: clear the decimal flag (47_flag_stack_nop.md R256). -/
def execCld (s : State) : Result := putFlags { s.flags with d := false } s

/-- SED: set the decimal flag (47_flag_stack_nop.md R257). -/
def execSed (s : State) : Result := putFlags { s.flags with d := true } s

/-- PHA: push A (47_flag_stack_nop.md R259). -/
def execPha (s : State) : Result := (s.push s.a).advance 1

/-- PLA: pull A; N and Z only under `pla_sets_nz` (47_flag_stack_nop.md R260). -/
def execPla (s : State) : Result :=
  let t := s.pulled.setReg .a s.pulledByte
  (if s.params.plaSetsNz then t.setNZ s.pulledByte else t).advance 1

/-- PHP: push the packed flags as they stand (47_flag_stack_nop.md R261). -/
def execPhp (s : State) : Result := (s.push s.flags.pack).advance 1

/-- PLP: pull all eight flags (47_flag_stack_nop.md R262). -/
def execPlp (s : State) : Result := (s.pulled.setFlags (Flags.unpack s.pulledByte)).advance 1

/-- NOP: only the PC moves (47_flag_stack_nop.md R263). -/
def execNop (s : State) : Result := s.advance 1

end Sys2Proof.Machine
end

