-- ==== Sys2Proof/Machine/IncCompare.lean ====
section
/-! DEFINITION. Increment, decrement, compare and BIT (44_incdec_compare_bit.md): a meaning for each row. -/

namespace Sys2Proof.Machine

/-- INX: increment X modulo 256 (44_incdec_compare_bit.md R211). -/
def execInx (s : State) : Result := step8 .x 1 s

/-- INY: increment Y modulo 256 (44_incdec_compare_bit.md R212). -/
def execIny (s : State) : Result := step8 .y 1 s

/-- DEX: decrement X modulo 256 (44_incdec_compare_bit.md R213). -/
def execDex (s : State) : Result := step8 .x (-1) s

/-- DEY: decrement Y modulo 256 (44_incdec_compare_bit.md R214). -/
def execDey (s : State) : Result := step8 .y (-1) s

/-- CMP immediate: compare A (44_incdec_compare_bit.md R216). -/
def execCmpImm (v : Byte) (s : State) : Result := compareReg .a v 2 s

/-- CMP absolute: compare A (44_incdec_compare_bit.md R216). -/
def execCmpAbs (ea : Word) (s : State) : Result := compareReg .a (s.absOperand ea) 3 s

/-- CPX immediate: compare X (44_incdec_compare_bit.md R217). -/
def execCpxImm (v : Byte) (s : State) : Result := compareReg .x v 2 s

/-- CPX absolute: compare X (44_incdec_compare_bit.md R217). -/
def execCpxAbs (ea : Word) (s : State) : Result := compareReg .x (s.absOperand ea) 3 s

/-- CPY immediate: compare Y (44_incdec_compare_bit.md R218). -/
def execCpyImm (v : Byte) (s : State) : Result := compareReg .y v 2 s

/-- CPY absolute: compare Y (44_incdec_compare_bit.md R218). -/
def execCpyAbs (ea : Word) (s : State) : Result := compareReg .y (s.absOperand ea) 3 s

/-- BIT: test bits of a cell (44_incdec_compare_bit.md R219). -/
def execBit (ea : Word) (s : State) : Result := (s.setFlags (bitFlags s.flags s.a (s.absOperand ea))).advance 3

end Sys2Proof.Machine
end

