-- ==== Sys2Proof/Machine/Jump.lean ====
section
/-! DEFINITION. JMP, JSR and RTS (46_jump_call.md): a meaning for each row. -/

namespace Sys2Proof.Machine

/-- JMP: to the absolute target (46_jump_call.md R240). -/
def execJmp (target : Word) (s : State) : Result := s.finish target.toNat

/-- JSR: push the low byte of its own opcode address, one decrement of S, then to the target (46_jump_call.md R241). -/
def execJsr (target : Word) (s : State) : Result := (s.push (lowByte s.pc)).finish target.toNat

/-- RTS: to the pulled byte plus 3 (46_jump_call.md R242). -/
def execRts (s : State) : Result := s.pulled.finish ((s.pulledByte.toNat : Int) + 3)

end Sys2Proof.Machine
end

