-- ==== Sys2Proof/Machine/LoadStore.lean ====
section
/-! DEFINITION. Load, transfer and store (41_load_transfer_store.md): a meaning for each row. -/

namespace Sys2Proof.Machine

/-- LDA immediate: load A (41_load_transfer_store.md R151). -/
def execLdaImm (v : Byte) (s : State) : Result := load .a v 2 s

/-- LDA absolute: load A from a cell (41_load_transfer_store.md R151). -/
def execLdaAbs (ea : Word) (s : State) : Result := load .a (s.absOperand ea) 3 s

/-- LDX immediate: load X (41_load_transfer_store.md R152). -/
def execLdxImm (v : Byte) (s : State) : Result := load .x v 2 s

/-- LDX absolute: load X from a cell (41_load_transfer_store.md R152). -/
def execLdxAbs (ea : Word) (s : State) : Result := load .x (s.absOperand ea) 3 s

/-- LDY immediate: load Y (41_load_transfer_store.md R153). -/
def execLdyImm (v : Byte) (s : State) : Result := load .y v 2 s

/-- LDY absolute: load Y from a cell (41_load_transfer_store.md R153). -/
def execLdyAbs (ea : Word) (s : State) : Result := load .y (s.absOperand ea) 3 s

/-- TAX: transfer A to X (41_load_transfer_store.md R154). -/
def execTax (s : State) : Result := transfer .a .x s

/-- TXA: transfer X to A (41_load_transfer_store.md R155). -/
def execTxa (s : State) : Result := transfer .x .a s

/-- TAY: transfer A to Y (41_load_transfer_store.md R156). -/
def execTay (s : State) : Result := transfer .a .y s

/-- TYA: transfer Y to A (41_load_transfer_store.md R157). -/
def execTya (s : State) : Result := transfer .y .a s

/-- TSX: transfer S to X (41_load_transfer_store.md R158). -/
def execTsx (s : State) : Result := transfer .s .x s

/-- TXS: transfer X to S; N and Z are set here (41_load_transfer_store.md R159). -/
def execTxs (s : State) : Result := transfer .x .s s

/-- STA: store A (41_load_transfer_store.md R161). -/
def execSta (ea : Word) (s : State) : Result := store .a ea s

/-- STX: store X (41_load_transfer_store.md R162). -/
def execStx (ea : Word) (s : State) : Result := store .x ea s

/-- STY: store Y (41_load_transfer_store.md R163). -/
def execSty (ea : Word) (s : State) : Result := store .y ea s

end Sys2Proof.Machine
end

