-- ==== Sys2Proof/Machine/Logic.lean ====
section
/-! DEFINITION. AND, ORA, EOR and the shifts (43_logical_shift.md): a meaning for each row. -/

namespace Sys2Proof.Machine

/-- AND immediate (43_logical_shift.md R191). -/
def execAndImm (v : Byte) (s : State) : Result := logical (s.a &&& v) 2 s

/-- AND absolute (43_logical_shift.md R191). -/
def execAndAbs (ea : Word) (s : State) : Result := logical (s.a &&& s.absOperand ea) 3 s

/-- ORA immediate (43_logical_shift.md R192). -/
def execOraImm (v : Byte) (s : State) : Result := logical (s.a ||| v) 2 s

/-- ORA absolute (43_logical_shift.md R192). -/
def execOraAbs (ea : Word) (s : State) : Result := logical (s.a ||| s.absOperand ea) 3 s

/-- EOR immediate (43_logical_shift.md R193). -/
def execEorImm (v : Byte) (s : State) : Result := logical (s.a ^^^ v) 2 s

/-- EOR absolute (43_logical_shift.md R193). -/
def execEorAbs (ea : Word) (s : State) : Result := logical (s.a ^^^ s.absOperand ea) 3 s

/-- ASL of the accumulator (43_logical_shift.md R195). -/
def execAslA (s : State) : Result := shiftAcc aslOf s

/-- ASL of a memory cell (43_logical_shift.md R195). -/
def execAslAbs (ea : Word) (s : State) : Result := shiftMem aslOf ea s

/-- LSR of the accumulator (43_logical_shift.md R196). -/
def execLsrA (s : State) : Result := shiftAcc lsrOf s

/-- LSR of a memory cell (43_logical_shift.md R196). -/
def execLsrAbs (ea : Word) (s : State) : Result := shiftMem lsrOf ea s

/-- ROL of the accumulator (43_logical_shift.md R197). -/
def execRolA (s : State) : Result := shiftAcc rolOf s

/-- ROL of a memory cell (43_logical_shift.md R197). -/
def execRolAbs (ea : Word) (s : State) : Result := shiftMem rolOf ea s

/-- ROR of the accumulator (43_logical_shift.md R198). -/
def execRorA (s : State) : Result := shiftAcc rorOf s

/-- ROR of a memory cell (43_logical_shift.md R198). -/
def execRorAbs (ea : Word) (s : State) : Result := shiftMem rorOf ea s

end Sys2Proof.Machine
end

