-- ==== Sys2Proof/Machine/Dispatch.lean ====
section
/-! DEFINITION. One arm per constructor of `Instr`, each one call of the instruction's meaning. -/

namespace Sys2Proof.Machine

/-- Run an instruction at a state whose PC holds its opcode address (40_step_cycle.md R134, R135). -/
def exec (i : Instr) (s : State) : Host.Outcome State Fault Refusal :=
  match i with
  -- Load, transfer and store (41_load_transfer_store.md)
  | .ldaImm v => Sys2Proof.Machine.execLdaImm v s
  | .ldaAbs ea => Sys2Proof.Machine.execLdaAbs ea s
  | .ldxImm v => Sys2Proof.Machine.execLdxImm v s
  | .ldxAbs ea => Sys2Proof.Machine.execLdxAbs ea s
  | .ldyImm v => Sys2Proof.Machine.execLdyImm v s
  | .ldyAbs ea => Sys2Proof.Machine.execLdyAbs ea s
  | .tax => Sys2Proof.Machine.execTax s
  | .txa => Sys2Proof.Machine.execTxa s
  | .tay => Sys2Proof.Machine.execTay s
  | .tya => Sys2Proof.Machine.execTya s
  | .tsx => Sys2Proof.Machine.execTsx s
  | .txs => Sys2Proof.Machine.execTxs s
  | .sta ea => Sys2Proof.Machine.execSta ea s
  | .stx ea => Sys2Proof.Machine.execStx ea s
  | .sty ea => Sys2Proof.Machine.execSty ea s
  -- Arithmetic (42_arithmetic.md)
  | .adcImm v => Sys2Proof.Machine.execAdcImm v s
  | .adcAbs ea => Sys2Proof.Machine.execAdcAbs ea s
  | .sbcImm v => Sys2Proof.Machine.execSbcImm v s
  | .sbcAbs ea => Sys2Proof.Machine.execSbcAbs ea s
  -- Logical and shift (43_logical_shift.md)
  | .andImm v => Sys2Proof.Machine.execAndImm v s
  | .andAbs ea => Sys2Proof.Machine.execAndAbs ea s
  | .oraImm v => Sys2Proof.Machine.execOraImm v s
  | .oraAbs ea => Sys2Proof.Machine.execOraAbs ea s
  | .eorImm v => Sys2Proof.Machine.execEorImm v s
  | .eorAbs ea => Sys2Proof.Machine.execEorAbs ea s
  | .aslA => Sys2Proof.Machine.execAslA s
  | .aslAbs ea => Sys2Proof.Machine.execAslAbs ea s
  | .lsrA => Sys2Proof.Machine.execLsrA s
  | .lsrAbs ea => Sys2Proof.Machine.execLsrAbs ea s
  | .rolA => Sys2Proof.Machine.execRolA s
  | .rolAbs ea => Sys2Proof.Machine.execRolAbs ea s
  | .rorA => Sys2Proof.Machine.execRorA s
  | .rorAbs ea => Sys2Proof.Machine.execRorAbs ea s
  -- Increment, decrement, compare, BIT (44_incdec_compare_bit.md)
  | .inx => Sys2Proof.Machine.execInx s
  | .iny => Sys2Proof.Machine.execIny s
  | .dex => Sys2Proof.Machine.execDex s
  | .dey => Sys2Proof.Machine.execDey s
  | .cmpImm v => Sys2Proof.Machine.execCmpImm v s
  | .cmpAbs ea => Sys2Proof.Machine.execCmpAbs ea s
  | .cpxImm v => Sys2Proof.Machine.execCpxImm v s
  | .cpxAbs ea => Sys2Proof.Machine.execCpxAbs ea s
  | .cpyImm v => Sys2Proof.Machine.execCpyImm v s
  | .cpyAbs ea => Sys2Proof.Machine.execCpyAbs ea s
  | .bit ea => Sys2Proof.Machine.execBit ea s
  -- Branches (45_branch.md)
  | .bpl off => Sys2Proof.Machine.execBpl off s
  | .bmi off => Sys2Proof.Machine.execBmi off s
  | .bvc off => Sys2Proof.Machine.execBvc off s
  | .bvs off => Sys2Proof.Machine.execBvs off s
  | .bcc off => Sys2Proof.Machine.execBcc off s
  | .bcs off => Sys2Proof.Machine.execBcs off s
  | .bne off => Sys2Proof.Machine.execBne off s
  | .beq off => Sys2Proof.Machine.execBeq off s
  -- Jump, call, return (46_jump_call.md)
  | .jmp target => Sys2Proof.Machine.execJmp target s
  | .jsr target => Sys2Proof.Machine.execJsr target s
  | .rts => Sys2Proof.Machine.execRts s
  -- Flags, stack, NOP (47_flag_stack_nop.md)
  | .clc => Sys2Proof.Machine.execClc s
  | .sec => Sys2Proof.Machine.execSec s
  | .cli => Sys2Proof.Machine.execCli s
  | .sei => Sys2Proof.Machine.execSei s
  | .clv => Sys2Proof.Machine.execClv s
  | .cld => Sys2Proof.Machine.execCld s
  | .sed => Sys2Proof.Machine.execSed s
  | .pha => Sys2Proof.Machine.execPha s
  | .pla => Sys2Proof.Machine.execPla s
  | .php => Sys2Proof.Machine.execPhp s
  | .plp => Sys2Proof.Machine.execPlp s
  | .nop => Sys2Proof.Machine.execNop s

end Sys2Proof.Machine
end

