-- ==== Sys2Proof/Machine/Place.lean ====
section
/-! DEFINITION. Placing one instruction where the next step fetches it, in the stead of an assembled image (log entry 4). -/

namespace Sys2Proof.Machine

/-- Where `placeInstr` puts an instruction when the next fetch address cannot hold three bytes of it. -/
def placeAddr : Word := 0x0200

/-- Store three bytes at an address and the two after it. -/
def State.putBytes (s : State) (a : Word) (op b1 b2 : Byte) : State :=
  ((s.memWrite a op).memWrite (a + 1) b1).memWrite (a + 2) b2

/-- Write the reset vector (20_memory.md R43, R47). -/
def State.putVector (s : State) (a : Word) : State :=
  (s.memWrite Config.vectorLow (lowByte a)).memWrite Config.vectorHigh (highByte a)

/-- `s` with three instruction bytes stored where its next step fetches. At the sentinel the next step fetches where the
reset vector points: the bytes go there when they lie clear of the vector's own cells, and otherwise the vector is made to
point to `placeAddr` and they go there. At another PC they go to the PC, but at 0xFFFF, where no operand byte exists
(20_memory.md R49), the PC is moved to `placeAddr`. -/
def State.placeInstr (s : State) (op b1 b2 : Byte) : State :=
  let a := s.handshake.pc
  if s.pc = Config.pcSentinel then
    if a.toNat + 2 < Config.vectorLow.toNat then s.putBytes a op b1 b2
    else (s.putVector placeAddr).putBytes placeAddr op b1 b2
  else if a.toNat + 2 < Config.memorySize then s.putBytes a op b1 b2
  else (s.setPc placeAddr).putBytes placeAddr op b1 b2

end Sys2Proof.Machine
end

