-- ==== Sys2Proof/Machine/Step.lean ====
section
/-! DEFINITION. One step of the core (40_step_cycle.md R138), and the placing of one instruction where the next step
fetches (a fixed name of the host). -/

namespace Sys2Proof.Machine

/-- 40_step_cycle.md R138: the handshake, the fetch, the decode, then the instruction or the unrecognised opcode. -/
def step (s : State) : Host.Outcome State Fault Refusal :=
  match s.handshake.decodeAtPc with
  | .ok i => exec i s.handshake
  | .error _ => s.handshake.skipUnrecognised

/-- `s` with the instruction of `nbits` bits `w` (byte 0 in bits 7 to 0, the bits above `nbits` zero, three bytes in all)
stored where `step` fetches next: see `State.placeInstr`. -/
def State.withFetchWord (s : State) (nbits w : Nat) : State :=
  let v := w % 2 ^ nbits
  s.placeInstr (BitVec.ofNat 8 v) (BitVec.ofNat 8 (v / 256)) (BitVec.ofNat 8 (v / 65536))

end Sys2Proof.Machine
end

