-- ==== Sys2Proof/Machine/AsmText.lean ====
section
/-! DEFINITION. The assembler's text: lines, comments, white space, literals and operand classes (30_encoding.md R71, R72,
R74, R82 to R86), and the kinds of error it reports (60_exceptions.md R271). -/

namespace Sys2Proof.Machine

/-- The sub-kinds of a SyntaxError (60_exceptions.md R271). -/
inductive SyntaxKind where
  | badImmediate
  | badAbsolute
  | badHex
  | badDirectiveOperand
  | labelNotAllowed
  deriving DecidableEq, Repr

/-- The error kinds that are reported. UnknownMnemonic and UnresolvedLabel never are (60_exceptions.md R271;
30_encoding.md R90, R99), so no report carries them. -/
inductive ReportKind where
  | syntaxError (kind : SyntaxKind)
  | invalidAddress
  deriving DecidableEq, Repr

/-- A report: the kind and the line, counted from 1 (60_exceptions.md R271; 30_encoding.md R71). -/
structure Report where
  kind : ReportKind
  line : Nat
  deriving DecidableEq, Repr

/-- White space is a space or a tab (30_encoding.md R72). -/
def isBlank (c : Char) : Bool := c == ' ' || c == '\t'

/-- Remove leading and trailing white space (30_encoding.md R72). -/
def trim (t : Text) : Text := ((t.dropWhile isBlank).reverse.dropWhile isBlank).reverse

/-- The pieces of a text between the occurrences of a character. -/
def splitAtChar (sep : Char) : Text → List Text
  | [] => [[]]
  | c :: rest =>
    if c = sep then [] :: splitAtChar sep rest
    else
      match splitAtChar sep rest with
      | [] => [[c]]
      | piece :: pieces => (c :: piece) :: pieces

/-- The lines of a source text: split at each LF (30_encoding.md R71). -/
def linesOf (source : Text) : List Text := splitAtChar '\n' source

/-- Remove a CR at the end of a line (30_encoding.md R71). -/
def stripCr (t : Text) : Text := if t.getLast? = some '\r' then t.dropLast else t

/-- Remove a comment: from the first `;` to the line's end (30_encoding.md R72). -/
def stripComment (t : Text) : Text := t.takeWhile fun c => c != ';'

/-- A line as the assembler classifies it (30_encoding.md R71, R72). -/
def cleanLine (t : Text) : Text := trim (stripComment (stripCr t))

/-- The text up to the first white space (30_encoding.md R74, R82). -/
def firstWord (t : Text) : Text := t.takeWhile fun c => !isBlank c

/-- The text after the first word, trimmed (30_encoding.md R74, R82). -/
def afterFirstWord (t : Text) : Text := trim (t.dropWhile fun c => !isBlank c)

/-- The value of a hexadecimal digit, in either case (30_encoding.md R84). -/
def hexDigit (c : Char) : Option Nat :=
  let n := c.toNat
  if 48 ≤ n ∧ n ≤ 57 then some (n - 48)
  else if 65 ≤ n ∧ n ≤ 70 then some (n - 55)
  else if 97 ≤ n ∧ n ≤ 102 then some (n - 87)
  else none

/-- The value of a decimal digit. -/
def decimalDigit (c : Char) : Option Nat :=
  let n := c.toNat
  if 48 ≤ n ∧ n ≤ 57 then some (n - 48) else none

/-- Every character's digit value, or none when some character is no digit. -/
def digitsOf (digit : Char → Option Nat) : Text → Option (List Nat)
  | [] => some []
  | c :: rest =>
    match digit c, digitsOf digit rest with
    | some d, some ds => some (d :: ds)
    | _, _ => none

/-- Digits read in a base, the first the most significant (30_encoding.md R84). -/
def valueOf (base : Nat) (ds : List Nat) : Nat := ds.foldl (fun n d => n * base + d) 0

/-- A hex literal of 1 to `most` digits: its value (30_encoding.md R74, R84). -/
def hexLiteral (most : Nat) : Text → Option Nat
  | '$' :: rest =>
    match digitsOf hexDigit rest with
    | some ds => if 1 ≤ ds.length ∧ ds.length ≤ most then some (valueOf 16 ds) else none
    | none => none
  | _ => none

/-- One or more decimal digits: their value. -/
def decimalLiteral (t : Text) : Option Nat :=
  match digitsOf decimalDigit t with
  | some (d :: ds) => some (valueOf 10 (d :: ds))
  | _ => none

/-- An optional sign and one or more decimal digits (30_encoding.md R83). -/
def signedDecimal : Text → Option Int
  | '+' :: rest => (decimalLiteral rest).map fun n => (n : Int)
  | '-' :: rest => (decimalLiteral rest).map fun n => -(n : Int)
  | t => (decimalLiteral t).map fun n => (n : Int)

/-- The operand classes of an instruction line (30_encoding.md R83). -/
inductive Operand where
  /-- The empty operand text. -/
  | null
  /-- Exactly `A`: the NULL mode too, naming the accumulator (30_encoding.md R83; 43_logical_shift.md R194). -/
  | acc
  | imm (v : Byte)
  | abs (w : Word)
  | rel (v : Byte)
  | label (name : Text)
  deriving DecidableEq, Repr

/-- The class of an operand after `$` (30_encoding.md R83, R84; 60_exceptions.md R271): 4 digits are ABS, 2 are REL. -/
def classifyHex (rest : Text) : Except SyntaxKind Operand :=
  match digitsOf hexDigit rest with
  | none => .error .badHex
  | some [] => .error .badHex
  | some ds =>
    if ds.length = 4 then .ok (.abs (BitVec.ofNat 16 (valueOf 16 ds)))
    else if ds.length = 2 then .ok (.rel (BitVec.ofNat 8 (valueOf 16 ds)))
    else .error .badAbsolute

/-- The first test of 30_encoding.md R83 that matches, in its order. The class LABEL takes in text that another 6502 reads
as an indirect operand, such as `($1234)`; a JMP or JSR with it finds no row (`absentForm`, 00_scope.md R5). -/
def classify : Text → Except SyntaxKind Operand
  | [] => .ok .null
  | ['A'] => .ok .acc
  | '#' :: rest =>
    match hexLiteral 2 rest with
    | some v => .ok (.imm (BitVec.ofNat 8 v))
    | none => .error .badImmediate
  | '$' :: rest => classifyHex rest
  | t =>
    match signedDecimal t with
    | some n => .ok (.rel (BitVec.ofInt 8 n))
    | none => .ok (.label t)

/-- The mnemonics' spelling, upper case (30_encoding.md R82). -/
def spelling : Mnemonic → Text
  | .lda => "LDA".toList
  | .ldx => "LDX".toList
  | .ldy => "LDY".toList
  | .tax => "TAX".toList
  | .txa => "TXA".toList
  | .tay => "TAY".toList
  | .tya => "TYA".toList
  | .tsx => "TSX".toList
  | .txs => "TXS".toList
  | .sta => "STA".toList
  | .stx => "STX".toList
  | .sty => "STY".toList
  | .adc => "ADC".toList
  | .sbc => "SBC".toList
  | .and => "AND".toList
  | .ora => "ORA".toList
  | .eor => "EOR".toList
  | .asl => "ASL".toList
  | .lsr => "LSR".toList
  | .rol => "ROL".toList
  | .ror => "ROR".toList
  | .inx => "INX".toList
  | .iny => "INY".toList
  | .dex => "DEX".toList
  | .dey => "DEY".toList
  | .cmp => "CMP".toList
  | .cpx => "CPX".toList
  | .cpy => "CPY".toList
  | .bit => "BIT".toList
  | .bpl => "BPL".toList
  | .bmi => "BMI".toList
  | .bvc => "BVC".toList
  | .bvs => "BVS".toList
  | .bcc => "BCC".toList
  | .bcs => "BCS".toList
  | .bne => "BNE".toList
  | .beq => "BEQ".toList
  | .jmp => "JMP".toList
  | .jsr => "JSR".toList
  | .rts => "RTS".toList
  | .clc => "CLC".toList
  | .sec => "SEC".toList
  | .cli => "CLI".toList
  | .sei => "SEI".toList
  | .clv => "CLV".toList
  | .cld => "CLD".toList
  | .sed => "SED".toList
  | .pha => "PHA".toList
  | .pla => "PLA".toList
  | .php => "PHP".toList
  | .plp => "PLP".toList
  | .nop => "NOP".toList

/-- The mnemonic a text spells exactly (30_encoding.md R82). -/
def mnemonicOf (t : Text) : Option Mnemonic := Mnemonic.all.find? fun m => spelling m == t

end Sys2Proof.Machine
end

