-- ==== Sys2Proof/Machine/AsmLine.lean ====
section
/-! DEFINITION. What one line of source text asks for (30_encoding.md R73 to R79, R82, R87 to R90). -/

namespace Sys2Proof.Machine

/-- What a line without a SyntaxError asks for. -/
inductive Action where
  /-- No byte, no report (30_encoding.md R78, R90, R97). -/
  | nothing
  /-- `.ORG` (30_encoding.md R75). -/
  | setCursor (address : Nat)
  /-- `.BYTE` or `.WORD`: bytes at the cursor (30_encoding.md R76, R77). -/
  | data (bytes : List Byte)
  /-- A label line (30_encoding.md R79). -/
  | define (name : Text)
  /-- An instruction line whose (mnemonic, mode) pair has a row (30_encoding.md R91). -/
  | emit (row : OpcodeRow) (operand : Operand)
  deriving DecidableEq, Repr

/-- The values of a directive's comma-separated items, each a hex literal of 1 to `most` digits (30_encoding.md R76,
R77); none when some item fails. -/
def itemValues (most : Nat) : List Text → Option (List Nat)
  | [] => some []
  | item :: items =>
    match hexLiteral most (trim item), itemValues most items with
    | some v, some vs => some (v :: vs)
    | _, _ => none

/-- The bytes of `.BYTE` values (30_encoding.md R76). -/
def byteData (vs : List Nat) : List Byte := vs.map (BitVec.ofNat 8)

/-- The bytes of `.WORD` values, low byte first (30_encoding.md R77). -/
def wordData (vs : List Nat) : List Byte :=
  vs.flatMap fun v => [lowByte (BitVec.ofNat 16 v), highByte (BitVec.ofNat 16 v)]

/-- A directive line (30_encoding.md R74 to R78). -/
def parseDirective (line : Text) : Except SyntaxKind Action :=
  let name := firstWord line
  let arg := afterFirstWord line
  if name = ".ORG".toList then
    match hexLiteral 4 arg with
    | some v => .ok (.setCursor v)
    | none => .error .badDirectiveOperand
  else if name = ".BYTE".toList then
    match itemValues 2 (splitAtChar ',' arg) with
    | some vs => .ok (.data (byteData vs))
    | none => .error .badDirectiveOperand
  else if name = ".WORD".toList then
    match itemValues 4 (splitAtChar ',' arg) with
    | some vs => .ok (.data (wordData vs))
    | none => .error .badDirectiveOperand
  else .ok .nothing

/-- The mode of a LABEL operand: REL for a branch, ABS for JMP and JSR (30_encoding.md R87); none for the others
(30_encoding.md R88). -/
def labelMode : Mnemonic → Option Mode
  | .bpl | .bmi | .bvc | .bvs | .bcc | .bcs | .bne | .beq => some .rel
  | .jmp | .jsr => some .abs
  | _ => none

/-- The mode an operand class stands for with a mnemonic (30_encoding.md R83, R87). -/
def operandMode (mn : Mnemonic) : Operand → Option Mode
  | .null | .acc => some .null
  | .imm _ => some .imm
  | .abs _ => some .abs
  | .rel _ => some .rel
  | .label _ => labelMode mn

/-- The mnemonics with an accumulator form, whose rows 30_encoding.md R64 marks "NULL (A)". -/
def accumulatorForm : Mnemonic → Bool
  | .asl | .lsr | .rol | .ror => true
  | _ => false

/-- The forms of an indirect operand's text that 6502s and their extensions have, each with its address text. -/
inductive IndirectForm where
  /-- `(address)`. -/
  | plain (address : Text)
  /-- `(address,X)`. -/
  | byX (address : Text)
  /-- `[address]`. -/
  | long (address : Text)
  deriving DecidableEq, Repr

/-- The form of an indirect operand's text, if it is one (00_scope.md R5; DEDUCED, log entry 13). The spec does not list
the excluded texts, and the model takes no other operand text of JMP or JSR for one: `JSR \addr` (special page, 740
family), `JMP >addr` and `JSR >addr` (forced long, 65816), and any other mark of an extension before a name, are names of
labels (DESIGN CHOICE, log entry 13). -/
def indirectForm : Text → Option IndirectForm
  | '(' :: rest =>
    if rest.getLast? = some ')' then
      match splitAtChar ',' rest.dropLast with
      | [address] => if trim address = [] then none else some (.plain address)
      | [address, index] => if trim address = [] ∨ trim index ≠ ['X'] then none else some (.byX address)
      | _ => none
    else none
  | '[' :: rest =>
    if rest.getLast? = some ']' then
      match splitAtChar ',' rest.dropLast with
      | [address] => if trim address = [] then none else some (.long address)
      | _ => none
    else none
  | _ => none

/-- The indirect forms that the model takes 00_scope.md R5 to exclude, for a 6502 or an extension of it gives them opcodes outside
30_encoding.md R64: those of JMP, and JSR's in parentheses (DEDUCED, log entry 13). -/
def excludedForm : Mnemonic → IndirectForm → Bool
  | .jmp, _ => true
  | .jsr, .plain _ => true
  | .jsr, .byX _ => true
  | _, _ => false

/-- The operand forms whose pair is absent in every opcode map: `A` with a mnemonic without an accumulator form, as R90
says of `INX A` (log entry 6), and the text of an excluded indirect JMP or JSR, which produces no bytes (00_scope.md R5;
log entry 13). Any other text of the class LABEL is a label's name (30_encoding.md R83). -/
def absentForm (mn : Mnemonic) : Operand → Bool
  | .acc => !accumulatorForm mn
  | .label t => (indirectForm t).any (excludedForm mn)
  | .null | .imm _ | .abs _ | .rel _ => false

/-- The row of an instruction line's (mnemonic, mode) pair (30_encoding.md R90). -/
def operandRow (map : OpcodeMap) (mn : Mnemonic) (mode : Mode) (operand : Operand) : Option OpcodeRow :=
  if absentForm mn operand then none else map.rowFor mn mode

/-- An instruction line (30_encoding.md R82, R88 to R90; 60_exceptions.md R273): classification errors first, then an
unknown mnemonic, which is silent, then a label operand that the mnemonic does not allow, then the lookup. -/
def parseInstr (map : OpcodeMap) (line : Text) : Except SyntaxKind Action :=
  match classify (afterFirstWord line) with
  | .error k => .error k
  | .ok operand =>
    match mnemonicOf (firstWord line) with
    | none => .ok .nothing
    | some mn =>
      match operandMode mn operand with
      | none => .error .labelNotAllowed
      | some mode =>
        match operandRow map mn mode operand with
        | none => .ok .nothing
        | some row => .ok (.emit row operand)

/-- A cleaned line, by the first test of 30_encoding.md R73 that matches. -/
def parseLine (map : OpcodeMap) (line : Text) : Except SyntaxKind Action :=
  if line = [] then .ok .nothing
  else if line.head? = some '.' then parseDirective line
  else if line.getLast? = some ':' then .ok (.define (trim line.dropLast))
  else parseInstr map line

end Sys2Proof.Machine
end

