-- ==== Sys2Proof/Machine/Assembler.lean ====
section
/-! DEFINITION. The one-pass assembler (30_encoding.md Part B): emission, labels and patches, the pass and its outcomes.
It works on the core's own state, whose memory it writes. -/

namespace Sys2Proof.Machine

/-- `EmitByte(a, v)`: none is InvalidAddress (30_encoding.md R95). -/
def emitByte (a : Nat) (v : Byte) (s : State) : Option State :=
  if a < Config.memorySize then some (s.memWrite (BitVec.ofNat 16 a) v) else none

/-- Bytes at rising addresses, low address first (30_encoding.md R96). -/
def emitBytes (a : Nat) : List Byte → State → Option State
  | [], s => some s
  | v :: vs, s =>
    match emitByte a v s with
    | none => none
    | some t => emitBytes (a + 1) vs t

/-- A branch offset byte: (target - origin) mod 256 (30_encoding.md R81, R92). -/
def relativeByte (target origin : Nat) : Byte := BitVec.ofInt 8 ((target : Int) - origin)

/-- `Resolve(P, t)` (30_encoding.md R81). -/
def resolve (t : Word) (p : Patch) (s : State) : Option State :=
  match p with
  | .absolute lo hi =>
    match emitByte lo (lowByte t) s with
    | none => none
    | some u => emitByte hi (highByte t) u
  | .relative loc origin => emitByte loc (relativeByte t.toNat origin) s

/-- Resolve patches in the order they were registered (30_encoding.md R79). -/
def resolveAll (t : Word) : List Patch → State → Option State
  | [], s => some s
  | p :: ps, s =>
    match resolve t p s with
    | none => none
    | some u => resolveAll t ps u

/-- The address of a label, when it is defined (10_state.md R35). -/
def AsmState.addressOf (m : AsmState) (name : Text) : Option Word := m.labels.lookup name

/-- The pending patches of a label, in the order they were registered (10_state.md R35). -/
def AsmState.pending (m : AsmState) (name : Text) : List Patch :=
  (m.patches.filter fun p => p.1 == name).map (·.2)

/-- Record a label at an address and clear its pending patches (30_encoding.md R79). -/
def AsmState.define (m : AsmState) (name : Text) (t : Word) : AsmState :=
  { m with labels := m.labels ++ [(name, t)], patches := m.patches.filter fun p => p.1 != name }

/-- A label line (30_encoding.md R79, R80). -/
def defineLabel (name : Text) (s : State) : Option State :=
  match s.asm.addressOf name with
  | some _ => some s
  | none =>
    if s.asm.cursor < Config.memorySize then
      let t := BitVec.ofNat 16 s.asm.cursor
      resolveAll t (s.asm.pending name) (s.setAsm (s.asm.define name t))
    else none

/-- The operand bytes an instruction line emits at `p` (30_encoding.md R91, R93, R94). -/
def emittedOperand (m : AsmState) (mode : Mode) (p : Nat) : Operand → List Byte
  | .null | .acc => []
  | .imm v => [v]
  | .rel v => [v]
  | .abs w => [lowByte w, highByte w]
  | .label name =>
    match m.addressOf name, mode with
    | some t, .rel => [relativeByte t.toNat (p + 2)]
    | some t, _ => [lowByte t, highByte t]
    | none, .rel => [0]
    | none, _ => [0, 0]

/-- The patch a forward reference at `p` registers (30_encoding.md R92, R94). -/
def newPatches (m : AsmState) (mode : Mode) (p : Nat) : Operand → List (Text × Patch)
  | .label name =>
    match m.addressOf name, mode with
    | some _, _ => []
    | none, .rel => [(name, .relative (p + 1) (p + 2))]
    | none, _ => [(name, .absolute (p + 1) (p + 2))]
  | _ => []

/-- An instruction line with a row (30_encoding.md R91): the check of R95 for the last byte comes before any byte. -/
def emitInstr (row : OpcodeRow) (operand : Operand) (s : State) : Option State :=
  let p := s.asm.cursor
  if p + row.mode.length ≤ Config.memorySize then
    match emitBytes p (row.opcode :: emittedOperand s.asm row.mode p operand) s with
    | none => none
    | some t =>
      some (t.setAsm { s.asm with cursor := p + row.mode.length
                                  patches := s.asm.patches ++ newPatches s.asm row.mode p operand })
  else none

/-- `.BYTE` and `.WORD` (30_encoding.md R76, R77). -/
def emitData (bytes : List Byte) (s : State) : Option State :=
  match emitBytes s.asm.cursor bytes s with
  | none => none
  | some t => some (t.setAsm { s.asm with cursor := s.asm.cursor + bytes.length })

/-- Carry out what a line asks for; none is InvalidAddress (30_encoding.md R95). -/
def applyAction (a : Action) (s : State) : Option State :=
  match a with
  | .nothing => some s
  | .setCursor address => some (s.setAsm { s.asm with cursor := address })
  | .data bytes => emitData bytes s
  | .define name => defineLabel name s
  | .emit row operand => emitInstr row operand s

/-- A pass in progress: the core's state, the SyntaxErrors reported so far in line order, and whether `abort_pass` has
stopped it (30_encoding.md R98). -/
structure Pass where
  state   : State
  reports : List Report
  stopped : Bool
  deriving DecidableEq, Repr

/-- A SyntaxError: it is reported, nothing is written, and `syntax_error_policy` says what comes next
(30_encoding.md R98). -/
def Pass.reportSyntax (p : Pass) (k : SyntaxKind) (line : Nat) : Pass :=
  { p with
    reports := p.reports ++ [{ kind := .syntaxError k, line := line }]
    stopped := decide (p.state.params.syntaxErrorPolicy = .abortPass) }

/-- One line; an error is the reports so far with the one of an InvalidAddress, which ends the assembly (30_encoding.md
R95; 60_exceptions.md R271; DEDUCED, log entry 15). -/
def runLine (line : Nat) (text : Text) (p : Pass) : Except (List Report) Pass :=
  if p.stopped then .ok p
  else
    match parseLine p.state.params.opcodeMap (cleanLine text) with
    | .error k => .ok (p.reportSyntax k line)
    | .ok a =>
      match applyAction a p.state with
      | none => .error (p.reports ++ [{ kind := .invalidAddress, line := line }])
      | some s => .ok { p with state := s }

/-- The lines in order, numbered from `line` (30_encoding.md R70, R71). -/
def runLines (line : Nat) : List Text → Pass → Except (List Report) Pass
  | [], p => .ok p
  | t :: ts, p =>
    match runLine line t p with
    | .error rs => .error rs
    | .ok q => runLines (line + 1) ts q

/-- How `assemble()` ends (30_encoding.md R100). -/
inductive Assembly where
  /-- The state with its memory image, and the SyntaxErrors reported. -/
  | completed (s : State) (reports : List Report)
  /-- Refused: the model fault, and the reports, the SyntaxErrors of the lines before and last the InvalidAddress
  (60_exceptions.md R271; log entry 15); there is no image (60_exceptions.md R272). -/
  | refused (f : Fault) (reports : List Report)
  deriving DecidableEq, Repr

/-- The start of an assembly: `reset()`, cursor 0, no label, no patch (30_encoding.md R70). -/
def Pass.start (params : Params) : Pass :=
  { state := State.resetWith params, reports := [], stopped := false }

/-- `assemble(source_text)` (30_encoding.md R70, R100). It keeps only the parameters of the state it is called at, and its
cursor, labels and patches are discarded at the end (10_state.md R35). -/
def assemble (source : Text) (s : State) : Assembly :=
  match runLines 1 (linesOf source) (Pass.start s.params) with
  | .error rs => .refused .invalidAddress rs
  | .ok p => .completed (p.state.setAsm AsmState.start) p.reports

end Sys2Proof.Machine
end

