-- ==== Sys2Proof/Machine/Session.lean ====
section
/-! DEFINITION. The host's side (70_reset_and_hazards.md R295, R296, R303, R304; 10_state.md R39): its two calls, the
snapshot it reads, halted states and the end of a run. -/

namespace Sys2Proof.Machine

/-- The host's calls; it has no other move (70_reset_and_hazards.md R295). -/
inductive HostCall where
  | assemble (source : Text)
  | step
  deriving DecidableEq, Repr

/-- The machine as the host holds it between calls: the core's state, and the fault the model has recorded, if any
(60_exceptions.md R272; 00_scope.md R10). -/
structure Session where
  state : State
  fault : Option Fault
  deriving DecidableEq, Repr

/-- A new instance, before its first assembly (70_reset_and_hazards.md R292). -/
def Session.start : Session := { state := State.reset, fault := none }

/-- What a call gives back to the host (70_reset_and_hazards.md R296). -/
inductive Reply where
  /-- An assembly completed, with these SyntaxErrors. -/
  | completed (reports : List Report)
  /-- An assembly was Refused, with the SyntaxErrors before its InvalidAddress, and that (log entry 15). -/
  | refused (reports : List Report)
  /-- A step was completed. -/
  | stepped
  /-- A step ended in a fault, or was not admitted because of one. -/
  | faulted (f : Fault)
  /-- A step was refused; none is (60_exceptions.md R270). -/
  | unmodelled (r : Refusal)
  deriving DecidableEq, Repr

/-- `assemble(source)`, which the host may call in every session, a faulted one too: it rebuilds everything
(70_reset_and_hazards.md R295). A Refused one leaves the reset state without an image, and its fault
(60_exceptions.md R272; log entry 8). -/
def Session.assembleCall (c : Session) (source : Text) : Session × Reply :=
  match Sys2Proof.Machine.assemble source c.state with
  | .completed t rs => ({ state := t, fault := none }, .completed rs)
  | .refused f rs => ({ state := State.resetWith c.state.params, fault := some f }, .refused rs)

/-- `step()`. After a fault no step is admitted (60_exceptions.md R272), and the session stays as it is; a step that ends
in a fault leaves the state from which it was taken (log entry 8). -/
def Session.stepCall (c : Session) : Session × Reply :=
  match c.fault with
  | some f => (c, .faulted f)
  | none =>
    match Sys2Proof.Machine.step c.state with
    | .next t => ({ state := t, fault := none }, .stepped)
    | .fault f => ({ state := c.state, fault := some f }, .faulted f)
    | .refused r => (c, .unmodelled r)

/-- A call of the host and what it gives back (70_reset_and_hazards.md R295). -/
def Session.call (c : Session) (h : HostCall) : Session × Reply :=
  match h with
  | .assemble source => c.assembleCall source
  | .step => c.stepCall

/-- What the host can observe between calls (10_state.md R39). -/
structure Snapshot where
  mem   : Memory
  a     : Byte
  x     : Byte
  y     : Byte
  s     : Byte
  pc    : Word
  flags : Flags
  deriving DecidableEq, Repr

/-- The snapshot of a state (10_state.md R39). -/
def State.snapshot (s : State) : Snapshot :=
  { mem := s.mem, a := s.a, x := s.x, y := s.y, s := s.s, pc := s.pc, flags := s.flags }

/-- The snapshot of a session, which exists after a completed call only (10_state.md R39). -/
def Session.snapshot (c : Session) : Option Snapshot :=
  match c.fault with
  | some _ => none
  | none => some c.state.snapshot

/-- A state that a step returns unchanged (70_reset_and_hazards.md R303). -/
def State.halted (s : State) : Bool :=
  match Sys2Proof.Machine.step s with
  | .next t => decide (t = s)
  | _ => false

/-- A run from `s` ends at `t`: the first halted state that repeated steps reach (70_reset_and_hazards.md R304). -/
def runEndsAt (s t : State) : Prop :=
  ∃ k, Host.Core.run Sys2Proof.core k s = .next t ∧ t.halted = true ∧
    ∀ j < k, ∀ u, Host.Core.run Sys2Proof.core j s = .next u → u.halted = false

/-- The end of a run from `s`, looked for within `fuel` steps. -/
def runEnd : Nat → State → Option State
  | 0, s => if s.halted then some s else none
  | fuel + 1, s =>
    if s.halted then some s
    else
      match Sys2Proof.Machine.step s with
      | .next t => runEnd fuel t
      | _ => none

end Sys2Proof.Machine
end

