-- ==== Sys2Proof/Safety.lean ====
section
/-! DEFINITION. The terms claims are stated in: what a well-formed state is, which faults a step may raise, and the
spec's own tables of who writes and reads what (10_state.md R20 to R22, R29; 45_branch.md R231 to R238). Nothing here is
used by the machine. -/

namespace Sys2Proof.Machine

/-- The form of a state between the host's calls: canonical memory, an admissible opcode map, and no assembly in progress
(10_state.md R35). -/
abbrev State.wf (s : State) : Prop := s.mem.wf ∧ s.params.wf = true ∧ s.asm = AsmState.start

/-- A step from `s` is safe when it does not end in a fault (60_exceptions.md R272). -/
def State.stepSafe (s : State) : Prop := ∀ f, step s ≠ .fault f

/-- The PC that a non-negative provisional next PC becomes: itself inside memory, else the sentinel (40_step_cycle.md
R135). -/
def pcAfter (npc : Nat) : Word := if npc < 65536 then BitVec.ofNat 16 npc else 0xFFFE

/-- The flags with Z and N from a value (40_step_cycle.md R139). -/
def nzFlags (f : Flags) (v : Byte) : Flags := { f with z := decide (v = 0), n := decide (0x7F < v.toNat) }

/-- The names of the eight flags (10_state.md R27). -/
inductive FlagName where
  | n
  | v
  | bh
  | bl
  | d
  | i
  | z
  | c
  deriving DecidableEq, Repr

/-- The value of a named flag. -/
def Flags.get (f : Flags) : FlagName → Bool
  | .n => f.n
  | .v => f.v
  | .bh => f.bh
  | .bl => f.bl
  | .d => f.d
  | .i => f.i
  | .z => f.z
  | .c => f.c

/-- The flags with a named flag replaced. -/
def Flags.put (f : Flags) (k : FlagName) (b : Bool) : Flags :=
  match k with
  | .n => { f with n := b }
  | .v => { f with v := b }
  | .bh => { f with bh := b }
  | .bl => { f with bl := b }
  | .d => { f with d := b }
  | .i => { f with i := b }
  | .z => { f with z := b }
  | .c => { f with c := b }

/-- The instructions that write N and Z whatever the parameters (10_state.md R29). -/
def nzWriters : List Mnemonic :=
  [.lda, .ldx, .ldy, .tax, .txa, .tay, .tya, .tsx, .txs, .adc, .sbc, .and, .ora, .eor, .asl, .lsr, .rol, .ror,
   .inx, .iny, .dex, .dey, .cmp, .cpx, .cpy, .bit, .plp]

/-- The column "written by" of 10_state.md R29. PLA joins the N and Z rows only under `pla_sets_nz`
(47_flag_stack_nop.md R260). -/
def flagWriters (plaSetsNz : Bool) : FlagName → List Mnemonic
  | .n | .z => nzWriters ++ (if plaSetsNz then [.pla] else [])
  | .v => [.adc, .sbc, .bit, .clv, .plp]
  | .bh | .bl => [.plp]
  | .d => [.cld, .sed, .plp]
  | .i => [.cli, .sei, .plp]
  | .c => [.adc, .sbc, .asl, .lsr, .rol, .ror, .cmp, .cpx, .cpy, .clc, .sec, .plp]

/-- The column "read by" of 10_state.md R29. -/
def flagReaders : FlagName → List Mnemonic
  | .n => [.bpl, .bmi, .php]
  | .v => [.bvc, .bvs, .php]
  | .bh | .bl | .i => [.php]
  | .d => [.adc, .sbc, .php]
  | .z => [.bne, .beq, .php]
  | .c => [.adc, .sbc, .rol, .ror, .bcc, .bcs, .php]

/-- Two answers that differ at most in one flag of their next states. -/
def agreeButFlag (k : FlagName) : Result → Result → Prop
  | .next t, .next u => t.setFlags (t.flags.put k false) = u.setFlags (u.flags.put k false)
  | .fault f, .fault g => f = g
  | .refused r, .refused q => r = q
  | _, _ => False

/-- The instructions that write a register (10_state.md R20 to R22; files 41 to 47). A shift writes A only in its
accumulator form (43_logical_shift.md R194). -/
def writesReg : Reg → Instr → Bool
  | .a, i => decide (i.mnemonic ∈ [.lda, .txa, .tya, .adc, .sbc, .and, .ora, .eor, .pla]) ||
      (decide (i.mnemonic ∈ [.asl, .lsr, .rol, .ror]) && decide (i.mode = .null))
  | .x, i => decide (i.mnemonic ∈ [.ldx, .tax, .tsx, .inx, .dex])
  | .y, i => decide (i.mnemonic ∈ [.ldy, .tay, .iny, .dey])
  | .s, i => decide (i.mnemonic ∈ [.txs, .pha, .pla, .php, .plp, .jsr, .rts])

/-- The one cell an instruction writes, if any: the absolute address of a store or of a shift's memory form
(41_load_transfer_store.md R160; 43_logical_shift.md R194), or the stack cell of a push (20_memory.md R55). -/
def storeAddr (s : State) : Instr → Option Word
  | .sta ea | .stx ea | .sty ea | .aslAbs ea | .lsrAbs ea | .rolAbs ea | .rorAbs ea => some ea
  | .jsr _ | .pha | .php => some (stackAddr s.s)
  | _ => none

/-- The eight branches with their conditions (45_branch.md R231 to R238). -/
def branchTable : List ((Byte → Instr) × (Flags → Bool)) :=
  [(.bpl, fun f => !f.n), (.bmi, fun f => f.n), (.bvc, fun f => !f.v), (.bvs, fun f => f.v),
   (.bcc, fun f => !f.c), (.bcs, fun f => f.c), (.bne, fun f => !f.z), (.beq, fun f => f.z)]

/-- The instruction is a branch with this offset byte whose condition holds under these flags. -/
def takenBranch (f : Flags) (off : Byte) (i : Instr) : Prop :=
  ∃ p ∈ branchTable, i = p.1 off ∧ p.2 f = true

/-- `Dec(m)` as a number (42_arithmetic.md R180). -/
def decimalValue (d : Bool) (m : Byte) : Nat := if d then (m.toNat >>> 4) * 10 + (m.toNat &&& 0x0F) else m.toNat

/-- The flags after ADC or SBC with reinterpreted operand `m'` and new accumulator `acc`: SetNZ, the given carry, and V
set exactly when bit 7 of the operand equals bit 7 of the result (42_arithmetic.md R181). -/
def arithmeticFlags (f : Flags) (m' : Nat) (acc : Byte) (carry : Bool) : Flags :=
  { nzFlags f acc with c := carry, v := m'.testBit 7 == acc.toNat.testBit 7 }

/-- The state after ADC of an operand value, before the PC moves (42_arithmetic.md R182). -/
def adcState (m : Byte) (s : State) : State :=
  let m' := decimalValue s.flags.d m
  let r := s.a.toNat + m' + s.flags.c.toNat
  { s with a := BitVec.ofNat 8 r, flags := arithmeticFlags s.flags m' (BitVec.ofNat 8 r) (decide (0xFF < r)) }

/-- The state after SBC of an operand value, before the PC moves (42_arithmetic.md R183). -/
def sbcState (m : Byte) (s : State) : State :=
  let m' := decimalValue s.flags.d m
  let r : Int := (s.a.toNat : Int) - (m' : Int) - (if s.flags.c then 0 else 1)
  { s with a := BitVec.ofInt 8 r, flags := arithmeticFlags s.flags m' (BitVec.ofInt 8 r) (decide (r < 0)) }

/-- The flags after a compare of R with m: C is R - m < 0, N and Z from the difference modulo 256
(44_incdec_compare_bit.md R215). -/
def comparedFlags (f : Flags) (r m : Byte) : Flags :=
  { nzFlags f (BitVec.ofInt 8 ((r.toNat : Int) - m.toNat)) with c := decide ((r.toNat : Int) - m.toNat < 0) }

/-- The byte a fetch reads at an address, 0 past the end of memory (20_memory.md R49). -/
def fetchedByte (s : State) (n : Nat) : Byte := if n < 65536 then s.mem.read n else 0

/-- The instruction at an address, under the state's opcode map (40_step_cycle.md R132, R133). -/
def instrAt (s : State) (p : Word) : Except DecodeError Instr :=
  decode s.params.opcodeMap (s.mem.read p.toNat) (fetchedByte s (p.toNat + 1)) (fetchedByte s (p.toNat + 2))

/-- The word at the reset vector (40_step_cycle.md R131). -/
def vectorWord (s : State) : Word := BitVec.ofNat 16 ((s.mem.read 0xFFFE).toNat + 256 * (s.mem.read 0xFFFF).toNat)

/-- The machine's default map encodes the instruction as these bytes (30_encoding.md R64). -/
def encodesAs (i : Instr) (bytes : List Byte) : Prop := encode defaultOpcodeMap i = some bytes

end Sys2Proof.Machine
end

