-- ==== Sys2Proof/Certificates/Slice0/Obligations.lean ====
section
/-! DEFINITION. The statements put to the provers. Each is listed in OBLIGATIONS.json with what it says in words, the rules
of spec/ it rests on and its tier. -/

open Sys2Proof Sys2Proof.Machine

/-- Reset fills memory with 0xFF, zeroes registers and flags, sets PC to 0xFFFE (parameters and assembler state in
State: log entries 1, 7) (70_reset_and_hazards.md R290, 10_state.md R37). -/
def Obligations.ResetState : Prop :=
  (∀ p : Params, (∀ n < 65536, (State.resetWith p).mem.read n = 0xFF) ∧
    (State.resetWith p).a = 0 ∧ (State.resetWith p).x = 0 ∧ (State.resetWith p).y = 0 ∧ (State.resetWith p).s = 0 ∧
    (∀ k, (State.resetWith p).flags.get k = false) ∧ (State.resetWith p).flags.pack = 0 ∧
    (State.resetWith p).pc = 0xFFFE ∧
    (State.resetWith p).asm = { cursor := 0, labels := [], patches := [] } ∧ (State.resetWith p).params = p) ∧
  State.reset = State.resetWith defaultParams

/-- The parameters after reset are the defaults the spec states (R8; log entries 1 and 3) (00_scope.md R8,
92_eei_decisions.md D1, D4, D5, D7, D22). -/
def Obligations.DefaultParameters : Prop :=
  State.reset.params.syntaxErrorPolicy = .skipLine ∧ State.reset.params.unrecognisedOpcodeAdvance = 0 ∧
  State.reset.params.pcNegativePolicy = .fault ∧ State.reset.params.plaSetsNz = false ∧
  State.reset.params.opcodeMap = defaultOpcodeMap ∧ State.reset.params.opcodeMap.length = 67 ∧
  OpcodeMap.wf State.reset.params.opcodeMap = true

/-- A read gives the last write to its cell; a write changes only its cell (20_memory.md R41, 20_memory.md R46). -/
def Obligations.MemoryReadAfterWrite : Prop :=
  (∀ (m : Memory) (a b : Nat) (v : Byte), (m.write a v).read b = if b = a then v else m.read b) ∧
  ∀ b : Nat, (Memory.mk []).read b = 0xFF

/-- A write keeps the canonical form of memory, and canonical memories with equal cells are equal (the model's form:
log entry 2) (20_memory.md R40, 20_memory.md R41). -/
def Obligations.MemoryFormIsKept : Prop :=
  (∀ (m : Memory) (a : Nat) (v : Byte), m.wf → a < 65536 → (m.write a v).wf) ∧
  ∀ m k : Memory, m.wf → k.wf → (∀ a, m.read a = k.read a) → m = k

/-- Push writes at 0x0100 + S then decrements; Pull increments then reads (R55, R56). -/
def Obligations.StackPrimitives : Prop :=
  (∀ (s : State) (v : Byte), s.push v =
    { s with mem := s.mem.write (0x0100 + s.s.toNat) v, s := BitVec.ofInt 8 ((s.s.toNat : Int) - 1) }) ∧
  ∀ s : State, s.pulled = { s with s := BitVec.ofNat 8 (s.s.toNat + 1) } ∧
    s.pulledByte = s.mem.read (0x0100 + (s.s.toNat + 1) % 256)

/-- The packed status byte is N V BH BL D I Z C, and unpacking inverts packing (10_state.md R27, 10_state.md R28). -/
def Obligations.StatusByteLayout : Prop :=
  (∀ f : Flags, f.pack.getLsbD 7 = f.n ∧ f.pack.getLsbD 6 = f.v ∧ f.pack.getLsbD 5 = f.bh ∧ f.pack.getLsbD 4 = f.bl ∧
    f.pack.getLsbD 3 = f.d ∧ f.pack.getLsbD 2 = f.i ∧ f.pack.getLsbD 1 = f.z ∧ f.pack.getLsbD 0 = f.c) ∧
  (∀ f : Flags, Flags.unpack f.pack = f) ∧ ∀ b : Byte, (Flags.unpack b).pack = b

/-- SetNZ sets Z on zero and N above 0x7F, which is bit 7, and nothing else (R139). -/
def Obligations.ZeroAndNegative : Prop :=
  ∀ (s : State) (v : Byte),
    s.setNZ v = { s with flags := { s.flags with z := decide (v = 0), n := decide (0x7F < v.toNat) } } ∧
    (s.setNZ v).flags.n = v.getLsbD 7

/-- The bytes of each of the 67 rows under the default opcode map (66 opcode values: log entry 3) (30_encoding.md R60,
R61, R64, 20_memory.md R43). -/
def Obligations.OpcodeBytes : Prop :=
  (∀ w : Word, w.toNat = (lowByte w).toNat + 256 * (highByte w).toNat) ∧
  (∀ v, encodesAs (.ldaImm v) [0xA9, v]) ∧
  (∀ ea, encodesAs (.ldaAbs ea) [0xAD, lowByte ea, highByte ea]) ∧
  (∀ v, encodesAs (.ldxImm v) [0xA2, v]) ∧
  (∀ ea, encodesAs (.ldxAbs ea) [0xAE, lowByte ea, highByte ea]) ∧
  (∀ v, encodesAs (.ldyImm v) [0xA0, v]) ∧
  (∀ ea, encodesAs (.ldyAbs ea) [0xAC, lowByte ea, highByte ea]) ∧
  encodesAs .tax [0xAA] ∧
  encodesAs .txa [0x8A] ∧
  encodesAs .tay [0xA8] ∧
  encodesAs .tya [0x98] ∧
  encodesAs .tsx [0xBA] ∧
  encodesAs .txs [0x9A] ∧
  (∀ ea, encodesAs (.sta ea) [0x8D, lowByte ea, highByte ea]) ∧
  (∀ ea, encodesAs (.stx ea) [0x8E, lowByte ea, highByte ea]) ∧
  (∀ ea, encodesAs (.sty ea) [0x8C, lowByte ea, highByte ea]) ∧
  (∀ v, encodesAs (.adcImm v) [0x69, v]) ∧
  (∀ ea, encodesAs (.adcAbs ea) [0x6D, lowByte ea, highByte ea]) ∧
  (∀ v, encodesAs (.sbcImm v) [0xE9, v]) ∧
  (∀ ea, encodesAs (.sbcAbs ea) [0xED, lowByte ea, highByte ea]) ∧
  (∀ v, encodesAs (.andImm v) [0x29, v]) ∧
  (∀ ea, encodesAs (.andAbs ea) [0x2D, lowByte ea, highByte ea]) ∧
  (∀ v, encodesAs (.oraImm v) [0x09, v]) ∧
  (∀ ea, encodesAs (.oraAbs ea) [0x0D, lowByte ea, highByte ea]) ∧
  (∀ v, encodesAs (.eorImm v) [0x49, v]) ∧
  (∀ ea, encodesAs (.eorAbs ea) [0x4D, lowByte ea, highByte ea]) ∧
  encodesAs .aslA [0x0A] ∧
  (∀ ea, encodesAs (.aslAbs ea) [0x0E, lowByte ea, highByte ea]) ∧
  encodesAs .lsrA [0x4A] ∧
  (∀ ea, encodesAs (.lsrAbs ea) [0x4E, lowByte ea, highByte ea]) ∧
  encodesAs .rolA [0x2A] ∧
  (∀ ea, encodesAs (.rolAbs ea) [0x2E, lowByte ea, highByte ea]) ∧
  encodesAs .rorA [0x6A] ∧
  (∀ ea, encodesAs (.rorAbs ea) [0x6E, lowByte ea, highByte ea]) ∧
  encodesAs .inx [0xE8] ∧
  encodesAs .iny [0xC8] ∧
  encodesAs .dex [0xCA] ∧
  encodesAs .dey [0x88] ∧
  (∀ v, encodesAs (.cmpImm v) [0xC9, v]) ∧
  (∀ ea, encodesAs (.cmpAbs ea) [0xCD, lowByte ea, highByte ea]) ∧
  (∀ v, encodesAs (.cpxImm v) [0xE0, v]) ∧
  (∀ ea, encodesAs (.cpxAbs ea) [0xEC, lowByte ea, highByte ea]) ∧
  (∀ v, encodesAs (.cpyImm v) [0xC0, v]) ∧
  (∀ ea, encodesAs (.cpyAbs ea) [0xCC, lowByte ea, highByte ea]) ∧
  (∀ ea, encodesAs (.bit ea) [0x2C, lowByte ea, highByte ea]) ∧
  (∀ off, encodesAs (.bpl off) [0x10, off]) ∧
  (∀ off, encodesAs (.bmi off) [0x30, off]) ∧
  (∀ off, encodesAs (.bvc off) [0x50, off]) ∧
  (∀ off, encodesAs (.bvs off) [0x70, off]) ∧
  (∀ off, encodesAs (.bcc off) [0x90, off]) ∧
  (∀ off, encodesAs (.bcs off) [0xB0, off]) ∧
  (∀ off, encodesAs (.bne off) [0xD0, off]) ∧
  (∀ off, encodesAs (.beq off) [0xF0, off]) ∧
  (∀ ea, encodesAs (.jmp ea) [0x4C, lowByte ea, highByte ea]) ∧
  (∀ ea, encodesAs (.jsr ea) [0x20, lowByte ea, highByte ea]) ∧
  encodesAs .rts [0x60] ∧
  encodesAs .clc [0x18] ∧
  encodesAs .sec [0x38] ∧
  encodesAs .cli [0x58] ∧
  encodesAs .sei [0x78] ∧
  encodesAs .clv [0xB8] ∧
  encodesAs .cld [0xD8] ∧
  encodesAs .sed [0xF8] ∧
  encodesAs .pha [0x48] ∧
  encodesAs .pla [0x68] ∧
  encodesAs .php [0x08] ∧
  encodesAs .plp [0x28] ∧
  encodesAs .nop [0xEA]

/-- Words written out from the spec decode to the instructions they stand for (default map: log entry 3)
(30_encoding.md R61, R64, R65, 46_jump_call.md R240). -/
def Obligations.SampleWordsDecode : Prop :=
  decodeTableWord 8 0xEA = some .nop ∧
  decodeTableWord 16 0x05A9 = some (.ldaImm 0x05) ∧
  decodeTableWord 24 0x00104C = some (.jmp 0x0010) ∧
  decodeTableWord 16 0x0169 = some (.adcImm 0x01) ∧
  decodeTableWord 16 0x8F29 = some (.andImm 0x8F) ∧
  decodeTableWord 8 0x0A = some .aslA ∧
  decodeTableWord 24 0x03004E = some (.lsrAbs 0x0300) ∧
  decodeTableWord 8 0xE8 = some .inx ∧
  decodeTableWord 16 0x20C9 = some (.cmpImm 0x20) ∧
  decodeTableWord 16 0xFAD0 = some (.bne 0xFA) ∧
  decodeTableWord 24 0x000E20 = some (.jsr 0x000E) ∧
  decodeTableWord 8 0x28 = some .plp ∧
  decodeTableWord 8 0x00 = none ∧
  decodeTableWord 8 0xFF = none

/-- The 189 bytes of R65 are unrecognised and every other byte is not (default map: log entry 3) (30_encoding.md R65,
30_encoding.md R66). -/
def Obligations.UnrecognisedOpcodes : Prop :=
  ∀ op b1 b2 : Byte, decode defaultOpcodeMap op b1 b2 = .error (.unrecognised op) ↔
    op ∈ ([
     0x00, 0x01, 0x02, 0x03, 0x04, 0x05, 0x06, 0x07, 0x0B, 0x0C, 0x0F, 0x11, 0x12, 0x13, 0x14, 0x15,
     0x16, 0x17, 0x19, 0x1A, 0x1B, 0x1C, 0x1D, 0x1E, 0x1F, 0x21, 0x22, 0x23, 0x24, 0x25, 0x26, 0x27,
     0x2B, 0x2F, 0x31, 0x32, 0x33, 0x34, 0x35, 0x36, 0x37, 0x39, 0x3A, 0x3B, 0x3C, 0x3D, 0x3E, 0x3F,
     0x40, 0x41, 0x42, 0x43, 0x44, 0x45, 0x46, 0x47, 0x4B, 0x4F, 0x51, 0x52, 0x53, 0x54, 0x55, 0x56,
     0x57, 0x59, 0x5A, 0x5B, 0x5C, 0x5D, 0x5E, 0x5F, 0x61, 0x62, 0x63, 0x64, 0x65, 0x66, 0x67, 0x6B,
     0x6C, 0x6F, 0x71, 0x72, 0x73, 0x74, 0x75, 0x76, 0x77, 0x79, 0x7A, 0x7B, 0x7C, 0x7D, 0x7E, 0x7F,
     0x80, 0x81, 0x82, 0x83, 0x84, 0x85, 0x86, 0x87, 0x89, 0x8B, 0x8F, 0x91, 0x92, 0x93, 0x94, 0x95,
     0x96, 0x97, 0x99, 0x9B, 0x9C, 0x9D, 0x9E, 0x9F, 0xA1, 0xA3, 0xA4, 0xA5, 0xA6, 0xA7, 0xAB, 0xAF,
     0xB1, 0xB2, 0xB3, 0xB4, 0xB5, 0xB6, 0xB7, 0xB9, 0xBB, 0xBC, 0xBD, 0xBE, 0xBF, 0xC1, 0xC2, 0xC3,
     0xC4, 0xC5, 0xC6, 0xC7, 0xCB, 0xCE, 0xCF, 0xD1, 0xD2, 0xD3, 0xD4, 0xD5, 0xD6, 0xD7, 0xD9, 0xDA,
     0xDB, 0xDC, 0xDD, 0xDE, 0xDF, 0xE1, 0xE2, 0xE3, 0xE4, 0xE5, 0xE6, 0xE7, 0xEB, 0xEE, 0xEF, 0xF1,
     0xF2, 0xF3, 0xF4, 0xF5, 0xF6, 0xF7, 0xF9, 0xFA, 0xFB, 0xFC, 0xFD, 0xFE, 0xFF] : List Byte)

/-- Under every well-formed map, each instruction encodes, and its bytes decode to it (R67). -/
def Obligations.DecodeInvertsEncode : Prop :=
  ∀ m : OpcodeMap, OpcodeMap.wf m = true → ∀ (i : Instr) (rest : List Byte),
    ∃ bytes, encode m i = some bytes ∧ bytes.length = i.length ∧ decodeBytes m (bytes ++ rest) = .ok (i, rest)

/-- Under every well-formed map, a decoded instruction encodes as the bytes it was decoded from (30_encoding.md R60,
R63, R67, 40_step_cycle.md R133). -/
def Obligations.EncodeInvertsDecode : Prop :=
  ∀ m : OpcodeMap, OpcodeMap.wf m = true → ∀ (op b1 b2 : Byte) (i : Instr), decode m op b1 b2 = .ok i →
    encode m i = some ([op, b1, b2].take i.length)

/-- A step runs the instruction decoded at the PC, or at the reset vector when PC is 0xFFFE (one handshake: D3, log
entry 12) (40_step_cycle.md R131, R132, R133, R138, 20_memory.md R49, 92_eei_decisions.md D3). -/
def Obligations.StepRunsDecodedInstruction : Prop :=
  (∀ (s : State) (i : Instr), s.pc ≠ 0xFFFE → instrAt s s.pc = .ok i → step s = exec i s) ∧
  ∀ (s : State) (i : Instr), s.pc = 0xFFFE → instrAt s (vectorWord s) = .ok i →
    step s = exec i { s with pc := vectorWord s }

/-- A step at an unrecognised opcode changes the PC alone, by the parameter (R136; D3, D5: log entry 12; ill-formed
maps: log entry 5) (40_step_cycle.md R136, 92_eei_decisions.md D3, D5). -/
def Obligations.UnrecognisedOpcodeStep : Prop :=
  (∀ (s : State) (e : DecodeError), s.pc ≠ 0xFFFE → instrAt s s.pc = .error e →
    step s = .next { s with pc := pcAfter (s.pc.toNat + s.params.unrecognisedOpcodeAdvance.val) }) ∧
  (∀ (s : State) (e : DecodeError), s.pc = 0xFFFE → instrAt s (vectorWord s) = .error e →
    step s = .next { s with pc := pcAfter ((vectorWord s).toNat + s.params.unrecognisedOpcodeAdvance.val) }) ∧
  ∀ (s : State) (e : DecodeError), s.pc ≠ 0xFFFE → instrAt s s.pc = .error e →
    s.params.unrecognisedOpcodeAdvance = 0 → step s = .next s

/-- The provisional next PC becomes the PC, the sentinel, or follows pc_negative_policy (R135) (40_step_cycle.md R135,
92_eei_decisions.md D4). -/
def Obligations.PcFinalisation : Prop :=
  ∀ (s : State) (npc : Int),
    (65536 ≤ npc → s.finish npc = .next { s with pc := 0xFFFE }) ∧
    (0 ≤ npc → npc < 65536 → s.finish npc = .next { s with pc := BitVec.ofNat 16 npc.toNat }) ∧
    (npc < 0 → s.params.pcNegativePolicy = .fault → s.finish npc = .fault .pcOutOfRange) ∧
    (npc < 0 → s.params.pcNegativePolicy = .sentinel → s.finish npc = .next { s with pc := 0xFFFE }) ∧
    (npc < 0 → s.params.pcNegativePolicy = .wrap →
      s.finish npc = .next { s with pc := BitVec.ofNat 16 (npc % 65536).toNat })

/-- Every state has a next state or the one fault: no step is refused (40_step_cycle.md R130, 60_exceptions.md R270,
R272). -/
def Obligations.StepIsNeverRefused : Prop :=
  ∀ s : State, (∃ t, step s = .next t) ∨ step s = .fault .pcOutOfRange

/-- A step faults exactly on a taken branch below address 0 under the fault policy (R135, R230; D4; one handshake: D3,
log entry 12) (40_step_cycle.md R130, R135, 45_branch.md R230, 60_exceptions.md R270, R272, 92_eei_decisions.md D3,
D4). -/
def Obligations.StepFaultsExactlyOnBranchBelowZero : Prop :=
  ∀ (s : State) (f : Fault), step s = .fault f ↔
    f = .pcOutOfRange ∧ s.params.pcNegativePolicy = .fault ∧
      ∃ (i : Instr) (off : Byte), instrAt s s.handshake.pc = .ok i ∧ takenBranch s.flags off i ∧
        (s.handshake.pc.toNat : Int) + 2 + off.toInt < 0

/-- Every step keeps memory canonical, the opcode map admissible and no assembly in progress (log entries 1, 2, 7)
(20_memory.md R40, R45, 10_state.md R23, R35, 00_scope.md R8). -/
def Obligations.StepKeepsInvariant : Prop :=
  ∀ s t : State, s.wf → step s = .next t → t.wf

/-- The reset state meets the invariant of O18 (log entries 1, 2, 3, 7) (10_state.md R37, 30_encoding.md R64). -/
def Obligations.ResetMeetsInvariant : Prop :=
  State.reset.wf ∧ ∀ p : Params, p.wf = true → (State.resetWith p).wf

/-- No step changes a parameter or the assembler's state (held in State: log entries 1, 7) (00_scope.md R8,
10_state.md R35, 70_reset_and_hazards.md R295). -/
def Obligations.StepKeepsParametersAndAssembler : Prop :=
  ∀ s t : State, step s = .next t → t.params = s.params ∧ t.asm = s.asm

/-- An instruction not named for a flag leaves that flag unchanged (table of R29) (10_state.md R29, R30,
47_flag_stack_nop.md R260). -/
def Obligations.FlagsWrittenOnlyAsTabulated : Prop :=
  ∀ (i : Instr) (s t : State) (k : FlagName), exec i s = .next t →
    i.mnemonic ∉ flagWriters s.params.plaSetsNz k → t.flags.get k = s.flags.get k

/-- A flag that the table does not name as read cannot influence an instruction (R29 to R31) (10_state.md R29, R30,
R31, 92_eei_decisions.md D32). -/
def Obligations.FlagsReadOnlyAsTabulated : Prop :=
  ∀ (i : Instr) (s : State) (k : FlagName) (b : Bool), i.mnemonic ∉ flagReaders k →
    agreeButFlag k (exec i s) (exec i (s.setFlags (s.flags.put k b))) ∧
    (i.mnemonic ∈ flagWriters s.params.plaSetsNz k → exec i (s.setFlags (s.flags.put k b)) = exec i s)

/-- An instruction changes no 8-bit register but its destination and S for the stack (10_state.md R20, R21, R22,
43_logical_shift.md R194). -/
def Obligations.RegistersWrittenOnlyByTheirWriters : Prop :=
  ∀ (i : Instr) (s t : State) (r : Reg), exec i s = .next t → writesReg r i = false → t.reg r = s.reg r

/-- An instruction changes no byte of memory but the one cell it stores to (20_memory.md R45, R46, R55,
41_load_transfer_store.md R160, 43_logical_shift.md R194). -/
def Obligations.MemoryWrittenOnlyAtStoreAddress : Prop :=
  (∀ (i : Instr) (s t : State) (a b : Word), exec i s = .next t → storeAddr s i = some a → b ≠ a →
    t.mem.read b.toNat = s.mem.read b.toNat) ∧
  ∀ (i : Instr) (s t : State) (b : Word), exec i s = .next t → storeAddr s i = none →
    t.mem.read b.toNat = s.mem.read b.toNat

/-- LDA LDX LDY TAX TXA TAY TYA TSX TXS complete: the value copied, N and Z set, PC advanced (R150). -/
def Obligations.LoadAndTransferResults : Prop :=
  (∀ (s : State) (v : Byte), exec (.ldaImm v) s =
    .next { s with a := v, flags := nzFlags s.flags v, pc := pcAfter (s.pc.toNat + 2) }) ∧
  (∀ (s : State) (ea : Word), exec (.ldaAbs ea) s =
    .next { s with a := s.mem.read ea.toNat, flags := nzFlags s.flags (s.mem.read ea.toNat),
                   pc := pcAfter (s.pc.toNat + 3) }) ∧
  (∀ (s : State) (v : Byte), exec (.ldxImm v) s =
    .next { s with x := v, flags := nzFlags s.flags v, pc := pcAfter (s.pc.toNat + 2) }) ∧
  (∀ (s : State) (ea : Word), exec (.ldxAbs ea) s =
    .next { s with x := s.mem.read ea.toNat, flags := nzFlags s.flags (s.mem.read ea.toNat),
                   pc := pcAfter (s.pc.toNat + 3) }) ∧
  (∀ (s : State) (v : Byte), exec (.ldyImm v) s =
    .next { s with y := v, flags := nzFlags s.flags v, pc := pcAfter (s.pc.toNat + 2) }) ∧
  (∀ (s : State) (ea : Word), exec (.ldyAbs ea) s =
    .next { s with y := s.mem.read ea.toNat, flags := nzFlags s.flags (s.mem.read ea.toNat),
                   pc := pcAfter (s.pc.toNat + 3) }) ∧
  (∀ s : State, exec .tax s =
    .next { s with x := s.a, flags := nzFlags s.flags s.a, pc := pcAfter (s.pc.toNat + 1) }) ∧
  (∀ s : State, exec .txa s =
    .next { s with a := s.x, flags := nzFlags s.flags s.x, pc := pcAfter (s.pc.toNat + 1) }) ∧
  (∀ s : State, exec .tay s =
    .next { s with y := s.a, flags := nzFlags s.flags s.a, pc := pcAfter (s.pc.toNat + 1) }) ∧
  (∀ s : State, exec .tya s =
    .next { s with a := s.y, flags := nzFlags s.flags s.y, pc := pcAfter (s.pc.toNat + 1) }) ∧
  (∀ s : State, exec .tsx s =
    .next { s with x := s.s, flags := nzFlags s.flags s.s, pc := pcAfter (s.pc.toNat + 1) }) ∧
  (∀ s : State, exec .txs s =
    .next { s with s := s.x, flags := nzFlags s.flags s.x, pc := pcAfter (s.pc.toNat + 1) })

/-- STA STX STY complete: the register at the absolute address, no flag, PC + 3 (R160). -/
def Obligations.StoreResults : Prop :=
  (∀ (s : State) (ea : Word), exec (.sta ea) s =
    .next { s with mem := s.mem.write ea.toNat s.a, pc := pcAfter (s.pc.toNat + 3) }) ∧
  (∀ (s : State) (ea : Word), exec (.stx ea) s =
    .next { s with mem := s.mem.write ea.toNat s.x, pc := pcAfter (s.pc.toNat + 3) }) ∧
  (∀ (s : State) (ea : Word), exec (.sty ea) s =
    .next { s with mem := s.mem.write ea.toNat s.y, pc := pcAfter (s.pc.toNat + 3) }) ∧
  ∀ (s : State) (ea b : Word) (v : Byte), (s.mem.write ea.toNat v).read b.toNat =
    if b = ea then v else s.mem.read b.toNat

/-- ADC completes: sum, carry above 0xFF, heuristic V (R182; D8, D9 are the spec's decisions) (42_arithmetic.md R180,
R181, R182 (pseudocode and flags), 92_eei_decisions.md D8, D9). -/
def Obligations.AdcResult : Prop :=
  (∀ (s : State) (v : Byte), exec (.adcImm v) s =
    .next { adcState v s with pc := pcAfter (s.pc.toNat + 2) }) ∧
  ∀ (s : State) (ea : Word), exec (.adcAbs ea) s =
    .next { adcState (s.mem.read ea.toNat) s with pc := pcAfter (s.pc.toNat + 3) }

/-- SBC completes: difference, carry as borrow, heuristic V (R183; D8, D9 are the spec's decisions) (42_arithmetic.md
R180, R181, R183 (pseudocode and flags), 92_eei_decisions.md D8, D9). -/
def Obligations.SbcResult : Prop :=
  (∀ (s : State) (v : Byte), exec (.sbcImm v) s =
    .next { sbcState v s with pc := pcAfter (s.pc.toNat + 2) }) ∧
  ∀ (s : State) (ea : Word), exec (.sbcAbs ea) s =
    .next { sbcState (s.mem.read ea.toNat) s with pc := pcAfter (s.pc.toNat + 3) }

/-- AND ORA EOR complete: the bitwise result in A, N and Z from it, no carry change (R190). -/
def Obligations.LogicalResults : Prop :=
  (∀ (s : State) (v : Byte), exec (.andImm v) s =
    .next { s with a := s.a &&& v, flags := nzFlags s.flags (s.a &&& v), pc := pcAfter (s.pc.toNat + 2) }) ∧
  (∀ (s : State) (ea : Word), exec (.andAbs ea) s =
    .next { s with a := s.a &&& s.mem.read ea.toNat, flags := nzFlags s.flags (s.a &&& s.mem.read ea.toNat),
                   pc := pcAfter (s.pc.toNat + 3) }) ∧
  (∀ (s : State) (v : Byte), exec (.oraImm v) s =
    .next { s with a := s.a ||| v, flags := nzFlags s.flags (s.a ||| v), pc := pcAfter (s.pc.toNat + 2) }) ∧
  (∀ (s : State) (ea : Word), exec (.oraAbs ea) s =
    .next { s with a := s.a ||| s.mem.read ea.toNat, flags := nzFlags s.flags (s.a ||| s.mem.read ea.toNat),
                   pc := pcAfter (s.pc.toNat + 3) }) ∧
  (∀ (s : State) (v : Byte), exec (.eorImm v) s =
    .next { s with a := s.a ^^^ v, flags := nzFlags s.flags (s.a ^^^ v), pc := pcAfter (s.pc.toNat + 2) }) ∧
  (∀ (s : State) (ea : Word), exec (.eorAbs ea) s =
    .next { s with a := s.a ^^^ s.mem.read ea.toNat, flags := nzFlags s.flags (s.a ^^^ s.mem.read ea.toNat),
                   pc := pcAfter (s.pc.toNat + 3) })

/-- ASL LSR ROL ROR complete on A and on a cell: carry is the bit shifted out, N and Z from the result (R194). -/
def Obligations.ShiftResults : Prop :=
  (∀ (s : State) (r : Byte), r = BitVec.ofNat 8 (s.a.toNat * 2) → exec .aslA s =
    .next { s with a := r, flags := { nzFlags s.flags r with c := decide (128 ≤ s.a.toNat) },
                   pc := pcAfter (s.pc.toNat + 1) }) ∧
  (∀ (s : State) (ea : Word) (r : Byte), r = BitVec.ofNat 8 ((s.mem.read ea.toNat).toNat * 2) →
    exec (.aslAbs ea) s =
      .next { s with mem := s.mem.write ea.toNat r,
                     flags := { nzFlags s.flags r with c := decide (128 ≤ (s.mem.read ea.toNat).toNat) },
                     pc := pcAfter (s.pc.toNat + 3) }) ∧
  (∀ (s : State) (r : Byte), r = BitVec.ofNat 8 (s.a.toNat / 2) → exec .lsrA s =
    .next { s with a := r, flags := { nzFlags s.flags r with c := decide (s.a.toNat % 2 = 1) },
                   pc := pcAfter (s.pc.toNat + 1) }) ∧
  (∀ (s : State) (ea : Word) (r : Byte), r = BitVec.ofNat 8 ((s.mem.read ea.toNat).toNat / 2) →
    exec (.lsrAbs ea) s =
      .next { s with mem := s.mem.write ea.toNat r,
                     flags := { nzFlags s.flags r with c := decide ((s.mem.read ea.toNat).toNat % 2 = 1) },
                     pc := pcAfter (s.pc.toNat + 3) }) ∧
  (∀ (s : State) (r : Byte), r = BitVec.ofNat 8 (s.a.toNat * 2 + s.flags.c.toNat) → exec .rolA s =
    .next { s with a := r, flags := { nzFlags s.flags r with c := decide (128 ≤ s.a.toNat) },
                   pc := pcAfter (s.pc.toNat + 1) }) ∧
  (∀ (s : State) (ea : Word) (r : Byte), r = BitVec.ofNat 8 ((s.mem.read ea.toNat).toNat * 2 + s.flags.c.toNat) →
    exec (.rolAbs ea) s =
      .next { s with mem := s.mem.write ea.toNat r,
                     flags := { nzFlags s.flags r with c := decide (128 ≤ (s.mem.read ea.toNat).toNat) },
                     pc := pcAfter (s.pc.toNat + 3) }) ∧
  (∀ (s : State) (r : Byte), r = BitVec.ofNat 8 (s.a.toNat / 2 + 128 * s.flags.c.toNat) → exec .rorA s =
    .next { s with a := r, flags := { nzFlags s.flags r with c := decide (s.a.toNat % 2 = 1) },
                   pc := pcAfter (s.pc.toNat + 1) }) ∧
  (∀ (s : State) (ea : Word) (r : Byte), r = BitVec.ofNat 8 ((s.mem.read ea.toNat).toNat / 2 + 128 * s.flags.c.toNat) →
    exec (.rorAbs ea) s =
      .next { s with mem := s.mem.write ea.toNat r,
                     flags := { nzFlags s.flags r with c := decide ((s.mem.read ea.toNat).toNat % 2 = 1) },
                     pc := pcAfter (s.pc.toNat + 3) })

/-- INX INY DEX DEY complete: the register plus or minus 1 modulo 256, N and Z from it (R210). -/
def Obligations.IncrementDecrementResults : Prop :=
  (∀ (s : State) (r : Byte), r = BitVec.ofNat 8 (s.x.toNat + 1) → exec .inx s =
    .next { s with x := r, flags := nzFlags s.flags r, pc := pcAfter (s.pc.toNat + 1) }) ∧
  (∀ (s : State) (r : Byte), r = BitVec.ofNat 8 (s.y.toNat + 1) → exec .iny s =
    .next { s with y := r, flags := nzFlags s.flags r, pc := pcAfter (s.pc.toNat + 1) }) ∧
  (∀ (s : State) (r : Byte), r = BitVec.ofInt 8 ((s.x.toNat : Int) - 1) → exec .dex s =
    .next { s with x := r, flags := nzFlags s.flags r, pc := pcAfter (s.pc.toNat + 1) }) ∧
  (∀ (s : State) (r : Byte), r = BitVec.ofInt 8 ((s.y.toNat : Int) - 1) → exec .dey s =
    .next { s with y := r, flags := nzFlags s.flags r, pc := pcAfter (s.pc.toNat + 1) })

/-- CMP CPX CPY complete: C is register below operand, N and Z from the difference (R215; D32)
(44_incdec_compare_bit.md R215, 92_eei_decisions.md D32). -/
def Obligations.CompareResults : Prop :=
  (∀ (s : State) (v : Byte), exec (.cmpImm v) s =
    .next { s with flags := comparedFlags s.flags s.a v, pc := pcAfter (s.pc.toNat + 2) }) ∧
  (∀ (s : State) (ea : Word), exec (.cmpAbs ea) s =
    .next { s with flags := comparedFlags s.flags s.a (s.mem.read ea.toNat), pc := pcAfter (s.pc.toNat + 3) }) ∧
  (∀ (s : State) (v : Byte), exec (.cpxImm v) s =
    .next { s with flags := comparedFlags s.flags s.x v, pc := pcAfter (s.pc.toNat + 2) }) ∧
  (∀ (s : State) (ea : Word), exec (.cpxAbs ea) s =
    .next { s with flags := comparedFlags s.flags s.x (s.mem.read ea.toNat), pc := pcAfter (s.pc.toNat + 3) }) ∧
  (∀ (s : State) (v : Byte), exec (.cpyImm v) s =
    .next { s with flags := comparedFlags s.flags s.y v, pc := pcAfter (s.pc.toNat + 2) }) ∧
  (∀ (s : State) (ea : Word), exec (.cpyAbs ea) s =
    .next { s with flags := comparedFlags s.flags s.y (s.mem.read ea.toNat), pc := pcAfter (s.pc.toNat + 3) })

/-- BIT completes: Z from A and the cell, N and V from the cell's bits 7 and 6 (44_incdec_compare_bit.md R219
(pseudocode and flags)). -/
def Obligations.BitTestResult : Prop :=
  ∀ (s : State) (ea : Word), exec (.bit ea) s =
    .next { s with flags := { s.flags with z := decide (s.a &&& s.mem.read ea.toNat = 0)
                                           n := (s.mem.read ea.toNat).getLsbD 7
                                           v := (s.mem.read ea.toNat).getLsbD 6 }
                   pc := pcAfter (s.pc.toNat + 3) }

/-- The eight branches complete: p + 2, or p + 2 plus the signed offset when the condition holds (45_branch.md R230,
40_step_cycle.md R135). -/
def Obligations.BranchResults : Prop :=
  (∀ p ∈ branchTable, ∀ (s : State) (off : Byte), p.2 s.flags = false →
    exec (p.1 off) s = .next { s with pc := pcAfter (s.pc.toNat + 2) }) ∧
  ∀ p ∈ branchTable, ∀ (s : State) (off : Byte), p.2 s.flags = true → 0 ≤ (s.pc.toNat : Int) + 2 + off.toInt →
    exec (p.1 off) s = .next { s with pc := pcAfter ((s.pc.toNat : Int) + 2 + off.toInt).toNat }

/-- A taken branch below address 0 follows pc_negative_policy (R135, R230; D4) (45_branch.md R230, 40_step_cycle.md
R135, 92_eei_decisions.md D4). -/
def Obligations.BranchBelowZero : Prop :=
  ∀ p ∈ branchTable, ∀ (s : State) (off : Byte), p.2 s.flags = true → (s.pc.toNat : Int) + 2 + off.toInt < 0 →
    (s.params.pcNegativePolicy = .fault → exec (p.1 off) s = .fault .pcOutOfRange) ∧
    (s.params.pcNegativePolicy = .sentinel → exec (p.1 off) s = .next { s with pc := 0xFFFE }) ∧
    (s.params.pcNegativePolicy = .wrap → exec (p.1 off) s =
      .next { s with pc := BitVec.ofNat 16 (((s.pc.toNat : Int) + 2 + off.toInt) % 65536).toNat })

/-- JMP completes: it encodes as 4C, low, high and sets PC to its target (R240). -/
def Obligations.JumpResult : Prop :=
  (∀ target : Word, encodesAs (.jmp target) [0x4C, lowByte target, highByte target]) ∧
  (∀ (s : State) (target : Word), exec (.jmp target) s = .next { s with pc := target }) ∧
  ∃ t, assemble "JMP loop\n.ORG $0010\nloop:".toList State.reset = .completed t [] ∧
    t.mem.read 0 = 0x4C ∧ t.mem.read 1 = 0x10 ∧ t.mem.read 2 = 0x00

/-- JSR completes: the low byte of its own address pushed, S decremented once, PC to the target (R241; D6)
(46_jump_call.md R241 (pseudocode), 92_eei_decisions.md D6). -/
def Obligations.CallResult : Prop :=
  ∀ (s : State) (target : Word), exec (.jsr target) s =
    .next { s with mem := s.mem.write (0x0100 + s.s.toNat) (BitVec.ofNat 8 (s.pc.toNat % 256))
                   s := BitVec.ofInt 8 ((s.s.toNat : Int) - 1), pc := target }

/-- RTS completes: S incremented, PC the pulled byte plus 3 (46_jump_call.md R242 (pseudocode)). -/
def Obligations.ReturnResult : Prop :=
  ∀ s : State, exec .rts s =
    .next { s with s := BitVec.ofNat 8 (s.s.toNat + 1)
                   pc := BitVec.ofNat 16 ((s.mem.read (0x0100 + (s.s.toNat + 1) % 256)).toNat + 3) }

/-- A JSR at p and its matching RTS resume at (p mod 256) + 3, with S as before (R243; D6: log entry 12)
(46_jump_call.md R241, R242, R243, 70_reset_and_hazards.md R299, 92_eei_decisions.md D6). -/
def Obligations.CallThenReturn : Prop :=
  ∀ (s : State) (target : Word), ∃ t, exec (.jsr target) s = .next t ∧ t.pc = target ∧
    ∀ u : State, u.s = t.s → u.mem.read (0x0100 + s.s.toNat) = t.mem.read (0x0100 + s.s.toNat) →
      ∃ w, exec .rts u = .next w ∧ w.s = s.s ∧ w.pc.toNat = s.pc.toNat % 256 + 3 ∧
        (w.pc.toNat = s.pc.toNat + 3 ↔ s.pc.toNat ≤ 0xFF)

/-- CLC SEC CLI SEI CLV CLD SED complete: each writes only its named flag, PC + 1 (R250). -/
def Obligations.FlagControlResults : Prop :=
  (∀ s : State, exec .clc s =
    .next { s with flags := { s.flags with c := false }, pc := pcAfter (s.pc.toNat + 1) }) ∧
  (∀ s : State, exec .sec s =
    .next { s with flags := { s.flags with c := true }, pc := pcAfter (s.pc.toNat + 1) }) ∧
  (∀ s : State, exec .cli s =
    .next { s with flags := { s.flags with i := false }, pc := pcAfter (s.pc.toNat + 1) }) ∧
  (∀ s : State, exec .sei s =
    .next { s with flags := { s.flags with i := true }, pc := pcAfter (s.pc.toNat + 1) }) ∧
  (∀ s : State, exec .clv s =
    .next { s with flags := { s.flags with v := false }, pc := pcAfter (s.pc.toNat + 1) }) ∧
  (∀ s : State, exec .cld s =
    .next { s with flags := { s.flags with d := false }, pc := pcAfter (s.pc.toNat + 1) }) ∧
  (∀ s : State, exec .sed s =
    .next { s with flags := { s.flags with d := true }, pc := pcAfter (s.pc.toNat + 1) })

/-- PHA PLA PHP PLP complete: push or pull A or the packed flags (R259 to R262; D7, D10) (47_flag_stack_nop.md R258,
47_flag_stack_nop.md R259, R260, R261, R262 (pseudocode and flags), 92_eei_decisions.md D7, D10). -/
def Obligations.StackInstructionResults : Prop :=
  (∀ s : State, exec .pha s = .next { s with mem := s.mem.write (0x0100 + s.s.toNat) s.a
                                             s := BitVec.ofInt 8 ((s.s.toNat : Int) - 1)
                                             pc := pcAfter (s.pc.toNat + 1) }) ∧
  (∀ s : State, exec .php s = .next { s with mem := s.mem.write (0x0100 + s.s.toNat) s.flags.pack
                                             s := BitVec.ofInt 8 ((s.s.toNat : Int) - 1)
                                             pc := pcAfter (s.pc.toNat + 1) }) ∧
  (∀ (s : State) (v : Byte), v = s.mem.read (0x0100 + (s.s.toNat + 1) % 256) → exec .pla s =
    .next { s with a := v, s := BitVec.ofNat 8 (s.s.toNat + 1)
                   flags := if s.params.plaSetsNz then nzFlags s.flags v else s.flags
                   pc := pcAfter (s.pc.toNat + 1) }) ∧
  ∀ (s : State) (v : Byte), v = s.mem.read (0x0100 + (s.s.toNat + 1) % 256) → exec .plp s =
    .next { s with s := BitVec.ofNat 8 (s.s.toNat + 1)
                   flags := { n := v.getLsbD 7, v := v.getLsbD 6, bh := v.getLsbD 5, bl := v.getLsbD 4
                              d := v.getLsbD 3, i := v.getLsbD 2, z := v.getLsbD 1, c := v.getLsbD 0 }
                   pc := pcAfter (s.pc.toNat + 1) }

/-- PLP after PHP gives all eight flags back, PLA after PHA gives A back, with S as before (D10: log entry 12)
(47_flag_stack_nop.md R259, R260, R261, R262, 10_state.md R28, 20_memory.md R55, R56, 92_eei_decisions.md D10). -/
def Obligations.PushPullRestores : Prop :=
  (∀ s : State, ∃ t, exec .php s = .next t ∧
    ∀ u : State, u.s = t.s → u.mem.read (0x0100 + s.s.toNat) = t.mem.read (0x0100 + s.s.toNat) →
      ∃ w, exec .plp u = .next w ∧ w.s = s.s ∧ w.flags = s.flags) ∧
  ∀ s : State, ∃ t, exec .pha s = .next t ∧
    ∀ u : State, u.s = t.s → u.mem.read (0x0100 + s.s.toNat) = t.mem.read (0x0100 + s.s.toNat) →
      ∃ w, exec .pla u = .next w ∧ w.s = s.s ∧ w.a = s.a

/-- NOP completes: PC + 1, no other effect (47_flag_stack_nop.md R263 (pseudocode)). -/
def Obligations.NopResult : Prop :=
  ∀ s : State, exec .nop s = .next { s with pc := pcAfter (s.pc.toNat + 1) }

/-- Every instruction but a taken branch below 0 has a next state in every state (40_step_cycle.md R130, R135,
60_exceptions.md R270). -/
def Obligations.EveryInstructionCompletes : Prop :=
  (∀ (i : Instr) (s : State), (∀ off, takenBranch s.flags off i → 0 ≤ (s.pc.toNat : Int) + 2 + off.toInt) →
    ∃ t, exec i s = .next t) ∧
  ∀ (i : Instr) (s : State), s.params.pcNegativePolicy ≠ .fault → ∃ t, exec i s = .next t

/-- With PC not 0xFFFE, a state is halted in exactly the three cases of R303 (ill-formed maps: log entry 5)
(70_reset_and_hazards.md R303, 40_step_cycle.md R136). -/
def Obligations.HaltedStatesAreExactlyThree : Prop :=
  ∀ s : State, s.pc ≠ 0xFFFE → (step s = .next s ↔
    ((∃ e, instrAt s s.pc = .error e) ∧ s.params.unrecognisedOpcodeAdvance = 0) ∨
    instrAt s s.pc = .ok (.jmp s.pc) ∨
    ∃ i, instrAt s s.pc = .ok i ∧ takenBranch s.flags 0xFE i)

/-- With PC 0xFFFE, a state is halted exactly when what stands at the vector changes nothing and ends at 0xFFFE (R303;
D3: log entry 12; log entry 5) (70_reset_and_hazards.md R303, 40_step_cycle.md R131, R136, R141, 92_eei_decisions.md
D3, D28). -/
def Obligations.HaltedAtSentinel : Prop :=
  ∀ s : State, s.pc = 0xFFFE →
    (s.halted = true ↔
      ((∃ e, instrAt s (vectorWord s) = .error e) ∧
        pcAfter ((vectorWord s).toNat + s.params.unrecognisedOpcodeAdvance.val) = 0xFFFE) ∨
      ∃ i t, instrAt s (vectorWord s) = .ok i ∧ exec i { s with pc := vectorWord s } = .next t ∧ t.pc = 0xFFFE ∧
        { t with pc := vectorWord s } = { s with pc := vectorWord s }) ∧
    (instrAt s (vectorWord s) = .ok (.jmp 0xFFFE) → s.halted = true) ∧
    (vectorWord s = 0xFFFE → (∃ e, instrAt s 0xFFFE = .error e) → s.params.unrecognisedOpcodeAdvance = 0 →
      s.halted = true) ∧
    ∀ i, instrAt s (vectorWord s) = .ok i →
      i.mnemonic ∈ [Mnemonic.jsr, .rts, .pha, .pla, .php, .plp, .inx, .iny, .dex, .dey] → s.halted = false

/-- A step from reset goes to 0xFFFF and halts there (R141, R293; 0xFF unrecognised: log entry 3; default advance 0:
D5, log entry 12) (40_step_cycle.md R141, 70_reset_and_hazards.md R293, 92_eei_decisions.md D1, D5). -/
def Obligations.UnwrittenVectorHalts : Prop :=
  step State.reset = .next { State.reset with pc := 0xFFFF } ∧
  State.halted { State.reset with pc := 0xFFFF } = true

/-- assemble() ends Completed with the reset registers and a memory image, or Refused (R100; D23; the model's form:
log entries 1, 2, 7, 8, 12, 15) (30_encoding.md R98, R100, 10_state.md R35, R37, 60_exceptions.md R271, R272,
92_eei_decisions.md D23). -/
def Obligations.AssemblyLeavesResetState : Prop :=
  (∀ (src : Text) (s t : State) (rs : List Report), assemble src s = .completed t rs →
    t = { State.resetWith s.params with mem := t.mem } ∧ t.mem.wf ∧ ∀ r ∈ rs, ∃ k, r.kind = .syntaxError k) ∧
  ∀ (src : Text) (s : State) (f : Fault) (rs : List Report), assemble src s = .refused f rs →
    f = .invalidAddress ∧ ∃ es n, rs = es ++ [⟨.invalidAddress, n⟩] ∧ ∀ r ∈ es, ∃ k, r.kind = .syntaxError k

/-- assemble() depends on nothing of the machine but its parameters (10_state.md R34, R35, 30_encoding.md R70, R101,
70_reset_and_hazards.md R295). -/
def Obligations.AssemblyForgetsTheMachine : Prop :=
  ∀ (src : Text) (s t : State), s.params = t.params → assemble src s = assemble src t

/-- A SyntaxError is reported with its line, writes nothing, and stops the pass only under abort_pass (R98; D22)
(30_encoding.md R98, 60_exceptions.md R271, R273, 92_eei_decisions.md D22, D29, D31). -/
def Obligations.SyntaxErrorLineWritesNothing : Prop :=
  (∀ (n : Nat) (text : Text) (p : Pass) (k : SyntaxKind), p.stopped = false →
    parseLine p.state.params.opcodeMap (cleanLine text) = .error k →
    ∃ q, runLine n text p = .ok q ∧ q.state = p.state ∧ q.reports = p.reports ++ [⟨.syntaxError k, n⟩] ∧
      (q.stopped = true ↔ p.state.params.syntaxErrorPolicy = .abortPass)) ∧
  ∀ (n : Nat) (lines : List Text) (p : Pass), p.stopped = true → runLines n lines p = .ok p

/-- Unknown directives and mnemonics, absent pairs and redefined labels produce nothing (R78, R80, R90, R97, R5; log
entries 6, 13) (30_encoding.md R78, R80, R90, R97, 00_scope.md R5, 92_eei_decisions.md D14, D15, D21). -/
def Obligations.SilentLinesChangeNothing : Prop :=
  (∀ line : Text, firstWord line ∉ [".ORG".toList, ".BYTE".toList, ".WORD".toList] →
    parseDirective line = .ok .nothing) ∧
  (∀ (m : OpcodeMap) (line : Text) (o : Operand), classify (afterFirstWord line) = .ok o →
    mnemonicOf (firstWord line) = none → parseInstr m line = .ok .nothing) ∧
  (∀ (m : OpcodeMap) (line : Text) (o : Operand) (mn : Mnemonic) (k : Mode),
    classify (afterFirstWord line) = .ok o → mnemonicOf (firstWord line) = some mn → operandMode mn o = some k →
    m.rowFor mn k = none → parseInstr m line = .ok .nothing) ∧
  (∀ (m : OpcodeMap) (line : Text) (mn : Mnemonic), afterFirstWord line = "A".toList →
    mnemonicOf (firstWord line) = some mn → mn ∉ [.asl, .lsr, .rol, .ror] → parseInstr m line = .ok .nothing) ∧
  (∀ (m : OpcodeMap) (line address : Text) (mn : Mnemonic), mnemonicOf (firstWord line) = some mn → ',' ∉ address →
    trim address ≠ [] →
    ((mn = .jmp ∨ mn = .jsr) ∧ (afterFirstWord line = '(' :: (address ++ ")".toList) ∨
        afterFirstWord line = '(' :: (address ++ ",X)".toList)) ∨
      mn = .jmp ∧ afterFirstWord line = '[' :: (address ++ "]".toList)) → parseInstr m line = .ok .nothing) ∧
  (∀ s : State, applyAction .nothing s = some s) ∧
  ∀ (name : Text) (s : State) (t : Word), s.asm.addressOf name = some t → defineLabel name s = some s

/-- What an instruction line writes decodes to that instruction and moves the cursor by its length (R67, R91)
(30_encoding.md R67, R91, R93, R94). -/
def Obligations.EmittedInstructionDecodes : Prop :=
  ∀ (s : State) (row : OpcodeRow) (o : Operand), OpcodeMap.wf s.params.opcodeMap = true →
    row ∈ s.params.opcodeMap → operandMode row.mnemonic o = some row.mode →
    s.asm.cursor + row.mode.length ≤ 65536 →
    ∃ t i, emitInstr row o s = some t ∧
      decode s.params.opcodeMap (t.mem.read s.asm.cursor) (fetchedByte t (s.asm.cursor + 1))
        (fetchedByte t (s.asm.cursor + 2)) = .ok i ∧
      i.mnemonic = row.mnemonic ∧ i.mode = row.mode ∧
      i.operandBytes = emittedOperand s.asm row.mode s.asm.cursor o ∧
      t.asm.cursor = s.asm.cursor + i.length ∧
      ∀ b, b < s.asm.cursor ∨ s.asm.cursor + i.length ≤ b → t.mem.read b = s.mem.read b

/-- .BYTE and .WORD write their bytes at the cursor and advance it; past 0xFFFF they are refused (R76, R77, R95; D23:
log entry 12) (30_encoding.md R76, R77, R95, R96, 92_eei_decisions.md D23). -/
def Obligations.DataDirectiveBytes : Prop :=
  (∀ (s : State) (bytes : List Byte), s.asm.cursor + bytes.length ≤ 65536 →
    ∃ t, emitData bytes s = some t ∧ t.asm = { s.asm with cursor := s.asm.cursor + bytes.length } ∧
      (∀ (k : Nat) (h : k < bytes.length), t.mem.read (s.asm.cursor + k) = bytes[k]) ∧
      ∀ b, b < s.asm.cursor ∨ s.asm.cursor + bytes.length ≤ b → t.mem.read b = s.mem.read b) ∧
  (∀ (s : State) (bytes : List Byte), bytes ≠ [] → 65536 < s.asm.cursor + bytes.length → emitData bytes s = none) ∧
  (∀ vs : List Nat, (∀ v ∈ vs, v < 256) → (byteData vs).length = vs.length ∧
    ∀ (k : Nat) (h : k < vs.length), ((byteData vs)[k]?).map (·.toNat) = some vs[k]) ∧
  ∀ vs : List Nat, (∀ v ∈ vs, v < 65536) → (wordData vs).length = 2 * vs.length ∧
    ∀ (k : Nat) (h : k < vs.length), ((wordData vs)[2 * k]?).map (·.toNat) = some (vs[k] % 256) ∧
      ((wordData vs)[2 * k + 1]?).map (·.toNat) = some (vs[k] / 256)

/-- An instruction or label above 0xFFFF is InvalidAddress, before any byte of the line, and ends the assembly (R95,
R100; D23: log entries 8, 12, 15) (30_encoding.md R79, R91, R95, R100, 60_exceptions.md R272, 92_eei_decisions.md
D23). -/
def Obligations.AddressesAboveMemoryAreRefused : Prop :=
  (∀ (s : State) (row : OpcodeRow) (o : Operand), operandMode row.mnemonic o = some row.mode →
    (emitInstr row o s = none ↔ 65535 < s.asm.cursor + row.mode.length - 1)) ∧
  (∀ (s : State) (name : Text), s.asm.addressOf name = none → 65535 < s.asm.cursor → defineLabel name s = none) ∧
  (∀ (n : Nat) (text : Text) (p : Pass) (a : Action), p.stopped = false →
    parseLine p.state.params.opcodeMap (cleanLine text) = .ok a → applyAction a p.state = none →
    runLine n text p = .error (p.reports ++ [⟨.invalidAddress, n⟩])) ∧
  ∀ (src : Text) (s : State) (done rest : List Text) (text : Text) (q : Pass) (rs : List Report),
    linesOf src = done ++ text :: rest → runLines 1 done (Pass.start s.params) = .ok q →
    runLine (1 + done.length) text q = .error rs → assemble src s = .refused .invalidAddress rs

/-- A forward reference, once its label is defined, leaves the bytes a backward reference writes (R93, R94)
(30_encoding.md R81, R92, R93, R94). -/
def Obligations.ForwardReferenceBytesMatchBackward : Prop :=
  ∀ (s : State) (row : OpcodeRow) (name : Text) (t : Word), s.mem.wf → s.asm.addressOf name = none →
    labelMode row.mnemonic = some row.mode → s.asm.cursor + row.mode.length ≤ 65536 →
    ∃ u v w, emitInstr row (.label name) s = some u ∧
      u.asm.patches = s.asm.patches ++ newPatches s.asm row.mode s.asm.cursor (.label name) ∧
      resolveAll t ((newPatches s.asm row.mode s.asm.cursor (.label name)).map (·.2)) u = some v ∧
      emitInstr row (.label name) (s.setAsm (s.asm.define name t)) = some w ∧ v.mem = w.mem

/-- A branch assembled to a label in range lands exactly on the label when taken (R92) (30_encoding.md R92,
45_branch.md R230, 90_conflicts.md C2, C7). -/
def Obligations.AssembledBranchLandsOnLabel : Prop :=
  ∀ p ∈ branchTable, ∀ (s : State) (t : Word), p.2 s.flags = true →
    -128 ≤ (t.toNat : Int) - (s.pc.toNat + 2) → (t.toNat : Int) - (s.pc.toNat + 2) ≤ 127 →
    exec (p.1 (relativeByte t.toNat (s.pc.toNat + 2))) s = .next { s with pc := t }

/-- Lines of the assembler's test vectors give their bytes (default map: log entry 3; D11, D17, D19, D22, D24: log
entries 10, 12) (95_test_vectors.md V-AS1, V-AS8, V-AS10, V-AS22, V-AS23, V-AS32, V-AS33, 30_encoding.md R77, R86,
R98, R99, 92_eei_decisions.md D1, D11, D17, D19, D22, D24). -/
def Obligations.AssemblerExamples : Prop :=
  (∃ t, assemble "LDA #$05\nBNE -6\nASL A\n.WORD $1234\nJMP nowhere".toList State.reset = .completed t [] ∧
    (List.range 10).map t.mem.read = [0xA9, 0x05, 0xD0, 0xFA, 0x0A, 0x34, 0x12, 0x4C, 0x00, 0x00]) ∧
  (∃ t, assemble ".ORG $0200\nBEQ fwd\nNOP\nNOP\nfwd:".toList State.reset = .completed t [] ∧
    t.mem.read 0x0200 = 0xF0 ∧ t.mem.read 0x0201 = 0x02) ∧
  (∃ t, assemble "LDA #$01\nLDA #1\nLDX #$02".toList State.reset = .completed t [⟨.syntaxError .badImmediate, 2⟩] ∧
    (List.range 4).map t.mem.read = [0xA9, 0x01, 0xA2, 0x02]) ∧
  ∃ t, assemble "LDA #$01\nLDA #1\nLDX #$02".toList
      (State.resetWith { defaultParams with syntaxErrorPolicy := .abortPass }) =
        .completed t [⟨.syntaxError .badImmediate, 2⟩] ∧
    (List.range 4).map t.mem.read = [0xA9, 0x01, 0xFF, 0xFF]

/-- The host may assemble in every session, and step in one without a fault (R295, R272; faulted sessions: log entry
8; reports of a refusal, R271: log entry 15) (70_reset_and_hazards.md R295, 60_exceptions.md R271, R272,
30_encoding.md R100, 10_state.md R39). -/
def Obligations.HostCallOutcomes : Prop :=
  (∀ (c : Session) (src : Text) (t : State) (rs : List Report), assemble src c.state = .completed t rs →
    c.call (.assemble src) = (⟨t, none⟩, .completed rs)) ∧
  (∀ (c : Session) (src : Text) (f : Fault) (rs : List Report), assemble src c.state = .refused f rs →
    (c.call (.assemble src)).1.fault = some .invalidAddress ∧ (c.call (.assemble src)).2 = .refused rs ∧
      (c.call (.assemble src)).1.snapshot = none) ∧
  (∀ (c d : Session) (src : Text), c.state.params = d.state.params → c.call (.assemble src) = d.call (.assemble src)) ∧
  (∀ (c : Session) (t : State), c.fault = none → step c.state = .next t → c.call .step = (⟨t, none⟩, .stepped)) ∧
  (∀ (c : Session) (f : Fault), c.fault = none → step c.state = .fault f →
    c.call .step = (⟨c.state, some f⟩, .faulted f)) ∧
  ∀ (c : Session) (f : Fault), c.fault = some f → c.call .step = (c, .faulted f)

/-- Every call of the host, in every session, keeps memory canonical, the parameters and no assembly in progress (log
entries 1, 2, 7, 8) (70_reset_and_hazards.md R295, 10_state.md R35, R37, 60_exceptions.md R270). -/
def Obligations.HostCallsKeepInvariant : Prop :=
  ∀ (c : Session) (h : HostCall), c.state.wf →
    (c.call h).1.state.wf ∧ (c.call h).1.state.params = c.state.params ∧ ∀ r, (c.call h).2 ≠ .unmodelled r

/-- A label operand of a branch, JMP or JSR is emitted but for the excluded indirect forms of JMP and JSR (R83, R87;
which texts: log entry 13) (00_scope.md R5, 30_encoding.md R83, R87, R90, R91, 92_eei_decisions.md D24, D26). -/
def Obligations.LabelOperandsAreEmitted : Prop :=
  (∀ (m : OpcodeMap) (line t : Text) (mn : Mnemonic) (k : Mode) (row : OpcodeRow),
    classify (afterFirstWord line) = .ok (.label t) → mnemonicOf (firstWord line) = some mn → labelMode mn = some k →
    m.rowFor mn k = some row → (mn ≠ .jmp ∧ mn ≠ .jsr) ∨ indirectForm t = none →
    parseInstr m line = .ok (.emit row (.label t))) ∧
  (∀ (m : OpcodeMap) (line rest : Text) (row : OpcodeRow), mnemonicOf (firstWord line) = some .jsr →
    afterFirstWord line = '[' :: rest → m.rowFor .jsr .abs = some row →
    parseInstr m line = .ok (.emit row (.label ('[' :: rest)))) ∧
  ∀ t : Text, (indirectForm t).isSome = true ↔ ∃ address, ',' ∉ address ∧ trim address ≠ [] ∧
    (t = '(' :: (address ++ [')']) ∨ t = '[' :: (address ++ [']']) ∨
      ∃ index, ',' ∉ index ∧ trim index = ['X'] ∧ t = '(' :: (address ++ ',' :: (index ++ [')'])))
end

