-- ==== Sys2Proof/Laws/Memory.lean ====
section
/-! SUPPORT. The laws of the memory: what a read after a write gives, that the canonical form is kept, and that two
canonical memories with equal cells are equal data (20_memory.md R41, R46). -/

namespace Sys2Proof.Machine

theorem readCells_eraseCell (a b : Nat) (c : List Host.Cell) :
    readCells (eraseCell a c) b = if b = a then Config.memoryFill else readCells c b := by
  induction c with
  | nil => simp [eraseCell, readCells]
  | cons p rest ih =>
    obtain ⟨k, v⟩ := p
    by_cases hk : k = a
    · by_cases hb : b = a
      · subst hb
        simpa [eraseCell, hk] using ih
      · have hkb : ¬ a = b := fun h => hb h.symm
        simp [eraseCell, readCells, hk, ih, hb, hkb]
    · by_cases hb : b = a
      · subst hb
        simp [eraseCell, readCells, hk, ih]
      · simp [eraseCell, readCells, hk, ih, hb]

theorem eraseCell_not_mem (a : Nat) (c : List Host.Cell) : ∀ p ∈ eraseCell a c, p.1 ≠ a := by
  induction c with
  | nil => simp [eraseCell]
  | cons p rest ih =>
    obtain ⟨k, v⟩ := p
    by_cases hk : k = a
    · simpa [eraseCell, hk] using ih
    · simp only [eraseCell, hk, if_false, List.mem_cons, forall_eq_or_imp]
      exact ⟨hk, ih⟩

theorem readCells_insertCell (a b : Nat) (v : Byte) (c : List Host.Cell) (h : ∀ p ∈ c, p.1 ≠ a) :
    readCells (insertCell a v c) b = if b = a then v else readCells c b := by
  induction c with
  | nil =>
    by_cases hb : b = a
    · simp [insertCell, readCells, hb]
    · have hab : ¬ a = b := fun e => hb e.symm
      simp [insertCell, readCells, hb, hab]
  | cons p rest ih =>
    obtain ⟨k, w⟩ := p
    have hk : k ≠ a := h (k, w) (by simp)
    have ih := ih (fun q hq => h q (by simp [hq]))
    by_cases hlt : k < a
    · by_cases hb : b = a
      · subst hb
        simp [insertCell, readCells, hlt, ih, hk]
      · simp [insertCell, readCells, hlt, ih, hb]
    · by_cases hb : b = a
      · simp [insertCell, readCells, hlt, hb]
      · have hab : ¬ a = b := fun e => hb e.symm
        simp [insertCell, readCells, hlt, hb, hab]

/-- A read after a write gives the value written at its cell, and what was there before at every other cell. -/
theorem Memory.read_write (m : Memory) (a b : Nat) (v : Byte) :
    (m.write a v).read b = if b = a then v else m.read b := by
  unfold Memory.write Memory.read
  by_cases hv : v = Config.memoryFill
  · simp [hv, readCells_eraseCell]
  · simp only [hv, if_false]
    rw [readCells_insertCell a b v _ (eraseCell_not_mem a m.cells), readCells_eraseCell]
    by_cases hb : b = a <;> simp [hb]

@[simp] theorem Memory.read_write_same (m : Memory) (a : Nat) (v : Byte) : (m.write a v).read a = v := by
  simp [Memory.read_write]

theorem Memory.read_write_other (m : Memory) {a b : Nat} (v : Byte) (h : b ≠ a) :
    (m.write a v).read b = m.read b := by
  simp [Memory.read_write, h]

theorem mem_eraseCell {a : Nat} {c : List Host.Cell} {p : Host.Cell} (h : p ∈ eraseCell a c) : p ∈ c := by
  induction c with
  | nil => simp [eraseCell] at h
  | cons q rest ih =>
    obtain ⟨k, v⟩ := q
    by_cases hk : k = a
    · simp only [eraseCell, hk, if_true] at h
      exact List.mem_cons_of_mem _ (ih h)
    · simp only [eraseCell, hk, if_false, List.mem_cons] at h
      rcases h with h | h
      · exact h ▸ List.mem_cons_self
      · exact List.mem_cons_of_mem _ (ih h)

theorem mem_insertCell {a : Nat} {v : Byte} {c : List Host.Cell} {p : Host.Cell} :
    p ∈ insertCell a v c ↔ p = (a, v) ∨ p ∈ c := by
  induction c with
  | nil => simp [insertCell]
  | cons q rest ih =>
    obtain ⟨k, w⟩ := q
    by_cases hk : k < a
    · simp only [insertCell, hk, if_true, List.mem_cons, ih]
      tauto
    · simp [insertCell, hk]

theorem eraseCell_rising {a : Nat} {c : List Host.Cell} (h : c.Pairwise fun p q => p.1 < q.1) :
    (eraseCell a c).Pairwise fun p q => p.1 < q.1 := by
  induction c with
  | nil => simp [eraseCell]
  | cons q rest ih =>
    obtain ⟨k, v⟩ := q
    obtain ⟨h1, h2⟩ := List.pairwise_cons.mp h
    by_cases hk : k = a
    · simpa [eraseCell, hk] using ih h2
    · simp only [eraseCell, hk, if_false]
      exact List.pairwise_cons.mpr ⟨fun p hp => h1 p (mem_eraseCell hp), ih h2⟩

theorem insertCell_rising {a : Nat} {v : Byte} {c : List Host.Cell} (h : c.Pairwise fun p q => p.1 < q.1)
    (ha : ∀ p ∈ c, p.1 ≠ a) : (insertCell a v c).Pairwise fun p q => p.1 < q.1 := by
  induction c with
  | nil => simp [insertCell]
  | cons q rest ih =>
    obtain ⟨k, w⟩ := q
    obtain ⟨h1, h2⟩ := List.pairwise_cons.mp h
    have hk : k ≠ a := ha (k, w) (by simp)
    by_cases hlt : k < a
    · simp only [insertCell, hlt, if_true]
      refine List.pairwise_cons.mpr ⟨fun p hp => ?_, ih h2 fun p hp => ha p (by simp [hp])⟩
      rcases mem_insertCell.mp hp with rfl | hp
      · exact hlt
      · exact h1 p hp
    · simp only [insertCell, hlt, if_false]
      have hak : a < k := by omega
      refine List.pairwise_cons.mpr ⟨fun p hp => ?_, h⟩
      rcases List.mem_cons.mp hp with rfl | hp
      · exact hak
      · exact Nat.lt_trans hak (h1 p hp)

/-- Every write inside memory keeps the canonical form. -/
theorem Memory.write_wf {m : Memory} (h : m.wf) {a : Nat} (ha : a < Config.memorySize) (v : Byte) :
    (m.write a v).wf := by
  obtain ⟨hr, hv⟩ := h
  have hr' := eraseCell_rising (a := a) hr
  have hv' : ∀ p ∈ eraseCell a m.cells, p.1 < Config.memorySize ∧ p.2 ≠ Config.memoryFill :=
    fun p hp => hv p (mem_eraseCell hp)
  unfold Memory.write Memory.wf
  by_cases hf : v = Config.memoryFill
  · simpa only [hf, if_true] using And.intro hr' hv'
  · simp only [hf, if_false]
    refine ⟨insertCell_rising hr' (eraseCell_not_mem a m.cells), fun p hp => ?_⟩
    rcases mem_insertCell.mp hp with rfl | hp
    · exact ⟨ha, hf⟩
    · exact hv' p hp

/-- The memory of the reset state, and of an assembly's start, is canonical. -/
theorem Memory.empty_wf : (Memory.mk []).wf := by decide

theorem readCells_eq_of_mem {c : List Host.Cell} (h : c.Pairwise fun p q => p.1 < q.1) {k : Nat} {v : Byte}
    (hm : (k, v) ∈ c) : readCells c k = v := by
  induction c with
  | nil => simp at hm
  | cons q rest ih =>
    obtain ⟨j, w⟩ := q
    obtain ⟨h1, h2⟩ := List.pairwise_cons.mp h
    rcases List.mem_cons.mp hm with e | hm
    · obtain ⟨rfl, rfl⟩ := Prod.mk.inj e
      simp [readCells]
    · have : j ≠ k := Nat.ne_of_lt (h1 _ hm)
      simp [readCells, this, ih h2 hm]

theorem readCells_below {c : List Host.Cell} {a : Nat} (h : ∀ p ∈ c, a < p.1) :
    readCells c a = Config.memoryFill := by
  induction c with
  | nil => rfl
  | cons q rest ih =>
    obtain ⟨k, v⟩ := q
    have hk : ¬ k = a := Nat.ne_of_gt (h (k, v) (by simp))
    simp only [readCells, hk, if_false]
    exact ih fun p hp => h p (by simp [hp])

/-- Equal memories are equal data: two canonical memories that read alike at every address are equal. -/
theorem Memory.ext_read {m k : Memory} (hm : m.wf) (hk : k.wf) (h : ∀ a, m.read a = k.read a) : m = k := by
  obtain ⟨c⟩ := m
  obtain ⟨d⟩ := k
  congr 1
  obtain ⟨hc, hcf⟩ := hm
  obtain ⟨hd, hdf⟩ := hk
  change ∀ a, readCells c a = readCells d a at h
  simp only at hc hcf hd hdf
  induction c generalizing d with
  | nil =>
    cases d with
    | nil => rfl
    | cons q rest =>
      have := h q.1
      rw [readCells_eq_of_mem hd (v := q.2) (by simp)] at this
      exact absurd this.symm (hdf q (by simp)).2
  | cons p rest ih =>
    cases d with
    | nil =>
      have := h p.1
      rw [readCells_eq_of_mem hc (v := p.2) (by simp)] at this
      exact absurd this (hcf p (by simp)).2
    | cons q rest' =>
      obtain ⟨k, v⟩ := p
      obtain ⟨j, w⟩ := q
      obtain ⟨hc1, hc2⟩ := List.pairwise_cons.mp hc
      obtain ⟨hd1, hd2⟩ := List.pairwise_cons.mp hd
      have hv : v ≠ Config.memoryFill := (hcf (k, v) (by simp)).2
      have hw : w ≠ Config.memoryFill := (hdf (j, w) (by simp)).2
      have hkj : k = j := by
        rcases Nat.lt_trichotomy k j with hlt | heq | hgt
        · have e := h k
          rw [readCells_eq_of_mem hc (v := v) (by simp), readCells_below] at e
          · exact absurd e hv
          · intro p hp
            rcases List.mem_cons.mp hp with rfl | hp
            · exact hlt
            · exact Nat.lt_trans hlt (hd1 p hp)
        · exact heq
        · have e := h j
          rw [readCells_eq_of_mem hd (v := w) (by simp), readCells_below] at e
          · exact absurd e.symm hw
          · intro p hp
            rcases List.mem_cons.mp hp with rfl | hp
            · exact hgt
            · exact Nat.lt_trans hgt (hc1 p hp)
      subst hkj
      have hvw : v = w := by simpa [readCells] using h k
      subst hvw
      congr 1
      refine ih rest' hc2 (fun p hp => hcf p (by simp [hp])) hd2 (fun p hp => hdf p (by simp [hp])) fun a => ?_
      by_cases hak : k = a
      · subst hak
        rw [readCells_below fun p hp => hc1 p hp, readCells_below fun p hp => hd1 p hp]
      · simpa [readCells, hak] using h a

-- The same through the state

/-- A state's read of one cell after a write. -/
theorem State.memRead_memWrite (s : State) (a b : Word) (v : Byte) :
    (s.memWrite a v).memRead b = if b = a then v else s.memRead b := by
  have h : (b.toNat = a.toNat) = (b = a) := by simp [BitVec.toNat_inj]
  simp only [State.memRead, State.memWrite, Memory.read_write, h]

theorem word_lt_memorySize (a : Word) : a.toNat < Config.memorySize := a.isLt

/-- A store through a word address keeps the canonical form. -/
theorem State.memWrite_wf {s : State} (h : s.mem.wf) (a : Word) (v : Byte) : (s.memWrite a v).mem.wf :=
  Memory.write_wf h (word_lt_memorySize a) v

/-- Past the end of memory an operand fetch reads 0 (20_memory.md R49). -/
theorem State.fetchByte_past (s : State) {a : Nat} (h : Config.memorySize ≤ a) : s.fetchByte a = 0 := by
  simp [State.fetchByte, Nat.not_lt.mpr h]

theorem State.fetchByte_inside (s : State) {a : Nat} (h : a < Config.memorySize) : s.fetchByte a = s.mem.read a := by
  simp [State.fetchByte, h]

end Sys2Proof.Machine
end

