-- ==== Sys2Proof/Laws/State.lean ====
section
/-! SUPPORT. One lemma per field per state update, true by rfl: later proofs rewrite with these and never unfold an
update. -/

namespace Sys2Proof.Machine

-- setReg .a
@[simp] theorem State.setReg_a_a (s : State) (v : Byte) : (s.setReg .a v).a = v := rfl
@[simp] theorem State.setReg_a_x (s : State) (v : Byte) : (s.setReg .a v).x = s.x := rfl
@[simp] theorem State.setReg_a_y (s : State) (v : Byte) : (s.setReg .a v).y = s.y := rfl
@[simp] theorem State.setReg_a_s (s : State) (v : Byte) : (s.setReg .a v).s = s.s := rfl
@[simp] theorem State.setReg_a_pc (s : State) (v : Byte) : (s.setReg .a v).pc = s.pc := rfl
@[simp] theorem State.setReg_a_flags (s : State) (v : Byte) : (s.setReg .a v).flags = s.flags := rfl
@[simp] theorem State.setReg_a_mem (s : State) (v : Byte) : (s.setReg .a v).mem = s.mem := rfl
@[simp] theorem State.setReg_a_asm (s : State) (v : Byte) : (s.setReg .a v).asm = s.asm := rfl
@[simp] theorem State.setReg_a_params (s : State) (v : Byte) : (s.setReg .a v).params = s.params := rfl
@[simp] theorem State.reg_a (s : State) : s.reg .a = s.a := rfl

-- setReg .x
@[simp] theorem State.setReg_x_a (s : State) (v : Byte) : (s.setReg .x v).a = s.a := rfl
@[simp] theorem State.setReg_x_x (s : State) (v : Byte) : (s.setReg .x v).x = v := rfl
@[simp] theorem State.setReg_x_y (s : State) (v : Byte) : (s.setReg .x v).y = s.y := rfl
@[simp] theorem State.setReg_x_s (s : State) (v : Byte) : (s.setReg .x v).s = s.s := rfl
@[simp] theorem State.setReg_x_pc (s : State) (v : Byte) : (s.setReg .x v).pc = s.pc := rfl
@[simp] theorem State.setReg_x_flags (s : State) (v : Byte) : (s.setReg .x v).flags = s.flags := rfl
@[simp] theorem State.setReg_x_mem (s : State) (v : Byte) : (s.setReg .x v).mem = s.mem := rfl
@[simp] theorem State.setReg_x_asm (s : State) (v : Byte) : (s.setReg .x v).asm = s.asm := rfl
@[simp] theorem State.setReg_x_params (s : State) (v : Byte) : (s.setReg .x v).params = s.params := rfl
@[simp] theorem State.reg_x (s : State) : s.reg .x = s.x := rfl

-- setReg .y
@[simp] theorem State.setReg_y_a (s : State) (v : Byte) : (s.setReg .y v).a = s.a := rfl
@[simp] theorem State.setReg_y_x (s : State) (v : Byte) : (s.setReg .y v).x = s.x := rfl
@[simp] theorem State.setReg_y_y (s : State) (v : Byte) : (s.setReg .y v).y = v := rfl
@[simp] theorem State.setReg_y_s (s : State) (v : Byte) : (s.setReg .y v).s = s.s := rfl
@[simp] theorem State.setReg_y_pc (s : State) (v : Byte) : (s.setReg .y v).pc = s.pc := rfl
@[simp] theorem State.setReg_y_flags (s : State) (v : Byte) : (s.setReg .y v).flags = s.flags := rfl
@[simp] theorem State.setReg_y_mem (s : State) (v : Byte) : (s.setReg .y v).mem = s.mem := rfl
@[simp] theorem State.setReg_y_asm (s : State) (v : Byte) : (s.setReg .y v).asm = s.asm := rfl
@[simp] theorem State.setReg_y_params (s : State) (v : Byte) : (s.setReg .y v).params = s.params := rfl
@[simp] theorem State.reg_y (s : State) : s.reg .y = s.y := rfl

-- setReg .s
@[simp] theorem State.setReg_s_a (s : State) (v : Byte) : (s.setReg .s v).a = s.a := rfl
@[simp] theorem State.setReg_s_x (s : State) (v : Byte) : (s.setReg .s v).x = s.x := rfl
@[simp] theorem State.setReg_s_y (s : State) (v : Byte) : (s.setReg .s v).y = s.y := rfl
@[simp] theorem State.setReg_s_s (s : State) (v : Byte) : (s.setReg .s v).s = v := rfl
@[simp] theorem State.setReg_s_pc (s : State) (v : Byte) : (s.setReg .s v).pc = s.pc := rfl
@[simp] theorem State.setReg_s_flags (s : State) (v : Byte) : (s.setReg .s v).flags = s.flags := rfl
@[simp] theorem State.setReg_s_mem (s : State) (v : Byte) : (s.setReg .s v).mem = s.mem := rfl
@[simp] theorem State.setReg_s_asm (s : State) (v : Byte) : (s.setReg .s v).asm = s.asm := rfl
@[simp] theorem State.setReg_s_params (s : State) (v : Byte) : (s.setReg .s v).params = s.params := rfl
@[simp] theorem State.reg_s (s : State) : s.reg .s = s.s := rfl

-- setPc
@[simp] theorem State.setPc_a (s : State) (w : Word) : (s.setPc w).a = s.a := rfl
@[simp] theorem State.setPc_x (s : State) (w : Word) : (s.setPc w).x = s.x := rfl
@[simp] theorem State.setPc_y (s : State) (w : Word) : (s.setPc w).y = s.y := rfl
@[simp] theorem State.setPc_s (s : State) (w : Word) : (s.setPc w).s = s.s := rfl
@[simp] theorem State.setPc_pc (s : State) (w : Word) : (s.setPc w).pc = w := rfl
@[simp] theorem State.setPc_flags (s : State) (w : Word) : (s.setPc w).flags = s.flags := rfl
@[simp] theorem State.setPc_mem (s : State) (w : Word) : (s.setPc w).mem = s.mem := rfl
@[simp] theorem State.setPc_asm (s : State) (w : Word) : (s.setPc w).asm = s.asm := rfl
@[simp] theorem State.setPc_params (s : State) (w : Word) : (s.setPc w).params = s.params := rfl

-- setFlags
@[simp] theorem State.setFlags_a (s : State) (f : Flags) : (s.setFlags f).a = s.a := rfl
@[simp] theorem State.setFlags_x (s : State) (f : Flags) : (s.setFlags f).x = s.x := rfl
@[simp] theorem State.setFlags_y (s : State) (f : Flags) : (s.setFlags f).y = s.y := rfl
@[simp] theorem State.setFlags_s (s : State) (f : Flags) : (s.setFlags f).s = s.s := rfl
@[simp] theorem State.setFlags_pc (s : State) (f : Flags) : (s.setFlags f).pc = s.pc := rfl
@[simp] theorem State.setFlags_flags (s : State) (f : Flags) : (s.setFlags f).flags = f := rfl
@[simp] theorem State.setFlags_mem (s : State) (f : Flags) : (s.setFlags f).mem = s.mem := rfl
@[simp] theorem State.setFlags_asm (s : State) (f : Flags) : (s.setFlags f).asm = s.asm := rfl
@[simp] theorem State.setFlags_params (s : State) (f : Flags) : (s.setFlags f).params = s.params := rfl

-- setAsm
@[simp] theorem State.setAsm_a (s : State) (m : AsmState) : (s.setAsm m).a = s.a := rfl
@[simp] theorem State.setAsm_x (s : State) (m : AsmState) : (s.setAsm m).x = s.x := rfl
@[simp] theorem State.setAsm_y (s : State) (m : AsmState) : (s.setAsm m).y = s.y := rfl
@[simp] theorem State.setAsm_s (s : State) (m : AsmState) : (s.setAsm m).s = s.s := rfl
@[simp] theorem State.setAsm_pc (s : State) (m : AsmState) : (s.setAsm m).pc = s.pc := rfl
@[simp] theorem State.setAsm_flags (s : State) (m : AsmState) : (s.setAsm m).flags = s.flags := rfl
@[simp] theorem State.setAsm_mem (s : State) (m : AsmState) : (s.setAsm m).mem = s.mem := rfl
@[simp] theorem State.setAsm_asm (s : State) (m : AsmState) : (s.setAsm m).asm = m := rfl
@[simp] theorem State.setAsm_params (s : State) (m : AsmState) : (s.setAsm m).params = s.params := rfl

-- memWrite
@[simp] theorem State.memWrite_a (s : State) (a : Word) (v : Byte) : (s.memWrite a v).a = s.a := rfl
@[simp] theorem State.memWrite_x (s : State) (a : Word) (v : Byte) : (s.memWrite a v).x = s.x := rfl
@[simp] theorem State.memWrite_y (s : State) (a : Word) (v : Byte) : (s.memWrite a v).y = s.y := rfl
@[simp] theorem State.memWrite_s (s : State) (a : Word) (v : Byte) : (s.memWrite a v).s = s.s := rfl
@[simp] theorem State.memWrite_pc (s : State) (a : Word) (v : Byte) : (s.memWrite a v).pc = s.pc := rfl
@[simp] theorem State.memWrite_flags (s : State) (a : Word) (v : Byte) : (s.memWrite a v).flags = s.flags := rfl
@[simp] theorem State.memWrite_mem (s : State) (a : Word) (v : Byte) : (s.memWrite a v).mem = s.mem.write a.toNat v := rfl
@[simp] theorem State.memWrite_asm (s : State) (a : Word) (v : Byte) : (s.memWrite a v).asm = s.asm := rfl
@[simp] theorem State.memWrite_params (s : State) (a : Word) (v : Byte) : (s.memWrite a v).params = s.params := rfl

-- setNZ
@[simp] theorem State.setNZ_a (s : State) (v : Byte) : (s.setNZ v).a = s.a := rfl
@[simp] theorem State.setNZ_x (s : State) (v : Byte) : (s.setNZ v).x = s.x := rfl
@[simp] theorem State.setNZ_y (s : State) (v : Byte) : (s.setNZ v).y = s.y := rfl
@[simp] theorem State.setNZ_s (s : State) (v : Byte) : (s.setNZ v).s = s.s := rfl
@[simp] theorem State.setNZ_pc (s : State) (v : Byte) : (s.setNZ v).pc = s.pc := rfl
@[simp] theorem State.setNZ_flags (s : State) (v : Byte) : (s.setNZ v).flags = s.flags.setNZ v := rfl
@[simp] theorem State.setNZ_mem (s : State) (v : Byte) : (s.setNZ v).mem = s.mem := rfl
@[simp] theorem State.setNZ_asm (s : State) (v : Byte) : (s.setNZ v).asm = s.asm := rfl
@[simp] theorem State.setNZ_params (s : State) (v : Byte) : (s.setNZ v).params = s.params := rfl

-- push
@[simp] theorem State.push_a (s : State) (v : Byte) : (s.push v).a = s.a := rfl
@[simp] theorem State.push_x (s : State) (v : Byte) : (s.push v).x = s.x := rfl
@[simp] theorem State.push_y (s : State) (v : Byte) : (s.push v).y = s.y := rfl
@[simp] theorem State.push_s (s : State) (v : Byte) : (s.push v).s = s.s - 1 := rfl
@[simp] theorem State.push_pc (s : State) (v : Byte) : (s.push v).pc = s.pc := rfl
@[simp] theorem State.push_flags (s : State) (v : Byte) : (s.push v).flags = s.flags := rfl
@[simp] theorem State.push_mem (s : State) (v : Byte) : (s.push v).mem = s.mem.write (stackAddr s.s).toNat v := rfl
@[simp] theorem State.push_asm (s : State) (v : Byte) : (s.push v).asm = s.asm := rfl
@[simp] theorem State.push_params (s : State) (v : Byte) : (s.push v).params = s.params := rfl

-- pulled
@[simp] theorem State.pulled_a (s : State)  : (s.pulled).a = s.a := rfl
@[simp] theorem State.pulled_x (s : State)  : (s.pulled).x = s.x := rfl
@[simp] theorem State.pulled_y (s : State)  : (s.pulled).y = s.y := rfl
@[simp] theorem State.pulled_s (s : State)  : (s.pulled).s = s.s + 1 := rfl
@[simp] theorem State.pulled_pc (s : State)  : (s.pulled).pc = s.pc := rfl
@[simp] theorem State.pulled_flags (s : State)  : (s.pulled).flags = s.flags := rfl
@[simp] theorem State.pulled_mem (s : State)  : (s.pulled).mem = s.mem := rfl
@[simp] theorem State.pulled_asm (s : State)  : (s.pulled).asm = s.asm := rfl
@[simp] theorem State.pulled_params (s : State)  : (s.pulled).params = s.params := rfl

-- SetNZ on the flags (40_step_cycle.md R139)
@[simp] theorem Flags.setNZ_n (f : Flags) (v : Byte) : (f.setNZ v).n = decide (0x7F < v.toNat) := rfl
@[simp] theorem Flags.setNZ_v (f : Flags) (v : Byte) : (f.setNZ v).v = f.v := rfl
@[simp] theorem Flags.setNZ_bh (f : Flags) (v : Byte) : (f.setNZ v).bh = f.bh := rfl
@[simp] theorem Flags.setNZ_bl (f : Flags) (v : Byte) : (f.setNZ v).bl = f.bl := rfl
@[simp] theorem Flags.setNZ_d (f : Flags) (v : Byte) : (f.setNZ v).d = f.d := rfl
@[simp] theorem Flags.setNZ_i (f : Flags) (v : Byte) : (f.setNZ v).i = f.i := rfl
@[simp] theorem Flags.setNZ_z (f : Flags) (v : Byte) : (f.setNZ v).z = decide (v = 0) := rfl
@[simp] theorem Flags.setNZ_c (f : Flags) (v : Byte) : (f.setNZ v).c = f.c := rfl

-- What setReg keeps, whichever register it writes

@[simp] theorem State.setReg_pc (s : State) (r : Reg) (v : Byte) : (s.setReg r v).pc = s.pc := by cases r <;> rfl
@[simp] theorem State.setReg_flags (s : State) (r : Reg) (v : Byte) : (s.setReg r v).flags = s.flags := by cases r <;> rfl
@[simp] theorem State.setReg_mem (s : State) (r : Reg) (v : Byte) : (s.setReg r v).mem = s.mem := by cases r <;> rfl
@[simp] theorem State.setReg_asm (s : State) (r : Reg) (v : Byte) : (s.setReg r v).asm = s.asm := by cases r <;> rfl
@[simp] theorem State.setReg_params (s : State) (r : Reg) (v : Byte) : (s.setReg r v).params = s.params := by cases r <;> rfl

/-- A register read after a register write (10_state.md R23: no aliases). -/
theorem State.reg_setReg (s : State) (r q : Reg) (v : Byte) : (s.setReg r v).reg q = if q = r then v else s.reg q := by
  cases r <;> cases q <;> rfl

-- putNZ: a register write and SetNZ

@[simp] theorem State.putNZ_pc (s : State) (r : Reg) (v : Byte) : (s.putNZ r v).pc = s.pc := by cases r <;> rfl
@[simp] theorem State.putNZ_mem (s : State) (r : Reg) (v : Byte) : (s.putNZ r v).mem = s.mem := by cases r <;> rfl
@[simp] theorem State.putNZ_asm (s : State) (r : Reg) (v : Byte) : (s.putNZ r v).asm = s.asm := by cases r <;> rfl
@[simp] theorem State.putNZ_params (s : State) (r : Reg) (v : Byte) : (s.putNZ r v).params = s.params := by cases r <;> rfl

@[simp] theorem State.putNZ_flags (s : State) (r : Reg) (v : Byte) : (s.putNZ r v).flags = s.flags.setNZ v := by
  cases r <;> rfl

end Sys2Proof.Machine
end

