-- ==== Sys2Proof/Laws/Assembler.lean ====
section
/-! SUPPORT. The laws of the assembler's emission: what each operation keeps, when it succeeds, and what it writes
(30_encoding.md R91, R95, R96). -/

namespace Sys2Proof.Machine

/-- The states that differ from `s` only in memory and in the assembler's own state, canonical memory being kept. -/
structure KeepsCore (s t : State) : Prop where
  eq    : t = { s with mem := t.mem, asm := t.asm }
  memWf : s.mem.wf → t.mem.wf

theorem KeepsCore.refl (s : State) : KeepsCore s s := ⟨rfl, id⟩

theorem KeepsCore.trans {s t u : State} (h : KeepsCore s t) (k : KeepsCore t u) : KeepsCore s u :=
  ⟨by rw [k.eq, h.eq], fun hw => k.memWf (h.memWf hw)⟩

theorem KeepsCore.setAsm (s : State) (m : AsmState) : KeepsCore s (s.setAsm m) := ⟨rfl, id⟩

theorem emitByte_some {a : Nat} {v : Byte} {s t : State} :
    emitByte a v s = some t ↔ a < Config.memorySize ∧ t = s.memWrite (BitVec.ofNat 16 a) v := by
  unfold emitByte
  by_cases h : a < Config.memorySize
  · simp [h, eq_comm]
  · simp [h]

/-- Inside memory a byte is always emitted. -/
theorem emitByte_inside {a : Nat} (h : a < Config.memorySize) (v : Byte) (s : State) :
    emitByte a v s = some (s.memWrite (BitVec.ofNat 16 a) v) := by simp [emitByte, h]

theorem emitByte_keeps {a : Nat} {v : Byte} {s t : State} (h : emitByte a v s = some t) :
    KeepsCore s t ∧ t.asm = s.asm := by
  obtain ⟨-, rfl⟩ := emitByte_some.mp h
  exact ⟨⟨rfl, fun hw => State.memWrite_wf hw _ v⟩, rfl⟩

/-- What an emitted byte leaves in memory. -/
theorem emitByte_read {a : Nat} {v : Byte} {s t : State} (h : emitByte a v s = some t) (b : Nat) :
    t.mem.read b = if b = a then v else s.mem.read b := by
  obtain ⟨ha, rfl⟩ := emitByte_some.mp h
  have : (BitVec.ofNat 16 a).toNat = a := by
    rw [BitVec.toNat_ofNat]; exact Nat.mod_eq_of_lt ha
  rw [State.memWrite_mem, this, Memory.read_write]

theorem emitBytes_keeps {vs : List Byte} {a : Nat} {s t : State} (h : emitBytes a vs s = some t) :
    KeepsCore s t ∧ t.asm = s.asm := by
  induction vs generalizing a s with
  | nil =>
    cases h
    exact ⟨.refl _, rfl⟩
  | cons v vs ih =>
    unfold emitBytes at h
    cases hb : emitByte a v s with
    | none => simp [hb] at h
    | some u =>
      simp only [hb] at h
      obtain ⟨k1, e1⟩ := emitByte_keeps hb
      obtain ⟨k2, e2⟩ := ih h
      exact ⟨k1.trans k2, e2.trans e1⟩

/-- A run of bytes that stays inside memory is always emitted. -/
theorem emitBytes_inside {vs : List Byte} {a : Nat} (h : a + vs.length ≤ Config.memorySize) (s : State) :
    ∃ t, emitBytes a vs s = some t := by
  induction vs generalizing a s with
  | nil => exact ⟨s, rfl⟩
  | cons v vs ih =>
    simp only [List.length_cons] at h
    unfold emitBytes
    rw [emitByte_inside (by omega)]
    exact ih (by omega) _

/-- What an emitted run leaves in memory: its own bytes, and everything else as before. -/
theorem emitBytes_read {vs : List Byte} {a : Nat} {s t : State} (h : emitBytes a vs s = some t) (b : Nat) :
    t.mem.read b = if a ≤ b ∧ b < a + vs.length then vs.getD (b - a) 0 else s.mem.read b := by
  induction vs generalizing a s with
  | nil =>
    cases h
    rw [if_neg (by simp only [List.length_nil]; omega)]
  | cons v vs ih =>
    unfold emitBytes at h
    cases hb : emitByte a v s with
    | none => simp [hb] at h
    | some u =>
      simp only [hb] at h
      rw [ih h, emitByte_read hb, List.length_cons]
      by_cases h1 : a + 1 ≤ b ∧ b < a + 1 + vs.length
      · rw [if_pos h1, if_pos (by omega)]
        have : b - a = (b - (a + 1)) + 1 := by omega
        rw [this, List.getD_cons_succ]
      · rw [if_neg h1]
        by_cases h2 : b = a
        · subst h2
          simp
        · rw [if_neg h2, if_neg (by omega)]

theorem resolve_keeps {t : Word} {p : Patch} {s u : State} (h : resolve t p s = some u) :
    KeepsCore s u ∧ u.asm = s.asm := by
  cases p with
  | absolute lo hi =>
    simp only [resolve] at h
    cases hb : emitByte lo (lowByte t) s with
    | none => simp [hb] at h
    | some v =>
      simp only [hb] at h
      obtain ⟨k1, e1⟩ := emitByte_keeps hb
      obtain ⟨k2, e2⟩ := emitByte_keeps h
      exact ⟨k1.trans k2, e2.trans e1⟩
  | relative loc origin => exact emitByte_keeps h

theorem resolveAll_keeps {t : Word} {ps : List Patch} {s u : State} (h : resolveAll t ps s = some u) :
    KeepsCore s u ∧ u.asm = s.asm := by
  induction ps generalizing s with
  | nil =>
    cases h
    exact ⟨.refl _, rfl⟩
  | cons p ps ih =>
    unfold resolveAll at h
    cases hb : resolve t p s with
    | none => simp [hb] at h
    | some v =>
      simp only [hb] at h
      obtain ⟨k1, e1⟩ := resolve_keeps hb
      obtain ⟨k2, e2⟩ := ih h
      exact ⟨k1.trans k2, e2.trans e1⟩

/-- Everything a line's action can change: memory and the assembler's own state (30_encoding.md R100). -/
theorem applyAction_keeps {a : Action} {s t : State} (h : applyAction a s = some t) : KeepsCore s t := by
  cases a with
  | nothing =>
    cases h
    exact .refl _
  | setCursor address =>
    cases h
    exact .setAsm _ _
  | data bytes =>
    simp only [applyAction, emitData] at h
    cases hb : emitBytes s.asm.cursor bytes s with
    | none => simp [hb] at h
    | some u =>
      simp only [hb, Option.some.injEq] at h
      subst h
      exact (emitBytes_keeps hb).1.trans (.setAsm u _)
  | define name =>
    simp only [applyAction, defineLabel] at h
    split at h
    · cases h
      exact .refl _
    · split at h
      · exact (KeepsCore.setAsm s _).trans (resolveAll_keeps h).1
      · simp at h
  | emit row operand =>
    simp only [applyAction, emitInstr] at h
    split at h
    · cases hb : emitBytes s.asm.cursor (row.opcode :: emittedOperand s.asm row.mode s.asm.cursor operand) s with
      | none => simp [hb] at h
      | some u =>
        simp only [hb, Option.some.injEq] at h
        subst h
        exact (emitBytes_keeps hb).1.trans (.setAsm u _)
    · simp at h

/-- A label operand stands for a branch's relative mode or the absolute mode of JMP and JSR. -/
theorem labelMode_cases {mn : Mnemonic} {k : Mode} (h : labelMode mn = some k) : k = .rel ∨ k = .abs := by
  cases mn <;> simp [labelMode] at h <;> simp [← h]

/-- The operand bytes of an instruction line fill the length of its mode (30_encoding.md R60). -/
theorem emittedOperand_length (m : AsmState) (row : OpcodeRow) (p : Nat) (o : Operand)
    (h : operandMode row.mnemonic o = some row.mode) :
    (emittedOperand m row.mode p o).length + 1 = row.mode.length := by
  cases o with
  | null | acc => cases h' : row.mode <;> first | rfl | (rw [h'] at h; simp [operandMode] at h)
  | imm v => cases h' : row.mode <;> first | rfl | (rw [h'] at h; simp [operandMode] at h)
  | abs v => cases h' : row.mode <;> first | rfl | (rw [h'] at h; simp [operandMode] at h)
  | rel v => cases h' : row.mode <;> first | rfl | (rw [h'] at h; simp [operandMode] at h)
  | label name =>
    cases hx : m.addressOf name <;> rcases labelMode_cases h with h' | h' <;> simp only [emittedOperand, hx, h'] <;> rfl

/-- Inside memory an instruction line writes its bytes at the cursor, moves it by its length and registers its patch. -/
theorem emitInstr_inside (row : OpcodeRow) (o : Operand) (s : State) (hin : s.asm.cursor + row.mode.length ≤ 65536)
    (h : operandMode row.mnemonic o = some row.mode) :
    ∃ u, emitBytes s.asm.cursor (row.opcode :: emittedOperand s.asm row.mode s.asm.cursor o) s = some u ∧
      emitInstr row o s = some (u.setAsm { s.asm with
        cursor := s.asm.cursor + row.mode.length
        patches := s.asm.patches ++ newPatches s.asm row.mode s.asm.cursor o }) := by
  obtain ⟨u, hu⟩ := emitBytes_inside (a := s.asm.cursor)
    (vs := row.opcode :: emittedOperand s.asm row.mode s.asm.cursor o)
    (by rw [List.length_cons, emittedOperand_length _ _ _ _ h]; exact hin) s
  refine ⟨u, hu, ?_⟩
  unfold emitInstr Config.memorySize
  simp only
  rw [if_pos hin, hu]

/-- Everything one line can do: nothing after a stop, a SyntaxError that writes nothing, an action, or InvalidAddress. -/
theorem runLine_cases (n : Nat) (text : Text) (p : Pass) :
    (p.stopped = true ∧ runLine n text p = .ok p) ∨
    (p.stopped = false ∧
      ((∃ k, runLine n text p = .ok (p.reportSyntax k n)) ∨
       (∃ a s, applyAction a p.state = some s ∧ runLine n text p = .ok { p with state := s }) ∨
       runLine n text p = .error (p.reports ++ [{ kind := .invalidAddress, line := n }]))) := by
  unfold runLine
  cases hs : p.stopped with
  | true => exact .inl ⟨rfl, rfl⟩
  | false =>
    refine .inr ⟨rfl, ?_⟩
    cases hp : parseLine p.state.params.opcodeMap (cleanLine text) with
    | error k => exact .inl ⟨k, rfl⟩
    | ok a =>
      cases ha : applyAction a p.state with
      | none => exact .inr (.inr (by simp [ha]))
      | some s => exact .inr (.inl ⟨a, s, ha, by simp [ha]⟩)

/-- What a SyntaxError and an action keep, a whole pass keeps. -/
theorem runLines_invariant {P : Pass → Prop} (hrep : ∀ p k n, P p → P (p.reportSyntax k n))
    (hact : ∀ (p : Pass) a s, P p → applyAction a p.state = some s → P { p with state := s })
    (ts : List Text) (n : Nat) (p q : Pass) (hp : P p) (h : runLines n ts p = .ok q) : P q := by
  induction ts generalizing n p with
  | nil =>
    cases h
    exact hp
  | cons t ts ih =>
    unfold runLines at h
    rcases runLine_cases n t p with ⟨-, h1⟩ | ⟨-, ⟨k, h1⟩ | ⟨a, s, ha, h1⟩ | h1⟩ <;> rw [h1] at h <;> simp only at h
    · exact ih _ _ hp h
    · exact ih _ _ (hrep _ _ _ hp) h
    · exact ih _ _ (hact _ _ _ hp ha) h
    · cases h

/-- Only an InvalidAddress ends a pass, and what the reports before it keep, its own list keeps. -/
theorem runLines_error {P : List Report → Prop} (hrep : ∀ rs k n, P rs → P (rs ++ [{ kind := .syntaxError k, line := n }]))
    (ts : List Text) (n : Nat) (p : Pass) (rs : List Report) (hp : P p.reports) (h : runLines n ts p = .error rs) :
    ∃ es m, rs = es ++ [{ kind := .invalidAddress, line := m }] ∧ P es := by
  induction ts generalizing n p with
  | nil => cases h
  | cons t ts ih =>
    unfold runLines at h
    rcases runLine_cases n t p with ⟨-, h1⟩ | ⟨-, ⟨k, h1⟩ | ⟨a, s, ha, h1⟩ | h1⟩ <;> rw [h1] at h <;> simp only at h
    · exact ih _ _ hp h
    · exact ih _ _ (hrep _ _ _ hp) h
    · exact ih _ { p with state := s } hp h
    · cases h
      exact ⟨_, _, rfl, hp⟩

-- The pieces of a text

/-- A text without the separator is its own one piece. -/
theorem splitAtChar_of_not_mem {c : Char} {t : Text} (h : c ∉ t) : splitAtChar c t = [t] := by
  induction t with
  | nil => rfl
  | cons d t ih =>
    simp only [List.mem_cons, not_or] at h
    rw [splitAtChar, if_neg (Ne.symm h.1), ih h.2]

/-- The first piece ends at the first separator. -/
theorem splitAtChar_append {c : Char} {t : Text} (h : c ∉ t) (u : Text) :
    splitAtChar c (t ++ c :: u) = t :: splitAtChar c u := by
  induction t with
  | nil => rw [List.nil_append, splitAtChar, if_pos rfl]
  | cons d t ih =>
    simp only [List.mem_cons, not_or] at h
    rw [List.cons_append, splitAtChar, if_neg (Ne.symm h.1), ih h.2]

/-- Every text is one piece, or a first piece, a separator and the rest. -/
theorem splitAtChar_cases (c : Char) (t : Text) :
    (c ∉ t ∧ splitAtChar c t = [t]) ∨
      ∃ a u, c ∉ a ∧ t = a ++ c :: u ∧ splitAtChar c t = a :: splitAtChar c u := by
  by_cases h : c ∈ t
  · obtain ⟨a, u, rfl, ha⟩ := List.eq_append_cons_of_mem h
    exact .inr ⟨a, u, ha, rfl, splitAtChar_append ha u⟩
  · exact .inl ⟨h, splitAtChar_of_not_mem h⟩

end Sys2Proof.Machine
end

