-- ==== Sys2Proof/Laws/PerInstr.lean ====
section
/-! SUPPORT. Statements for all instructions, made per instruction: each instruction is found again from its mnemonic,
mode and operand bytes, and its mode is one its mnemonic has (30_encoding.md R60 to R64). -/

namespace Sys2Proof

theorem wordOf_low_high (w : Word) : wordOf (lowByte w) (highByte w) = w := by
  unfold wordOf lowByte highByte
  apply BitVec.eq_of_getElem_eq
  intro i hi
  simp only [BitVec.getElem_append, BitVec.getElem_extractLsb']
  split
  · simpa using BitVec.getLsbD_eq_getElem (x := w) hi
  · have : 8 + (i - 8) = i := by omega
    simpa [this] using BitVec.getLsbD_eq_getElem (x := w) hi

theorem lowByte_wordOf (lo hi : Byte) : lowByte (wordOf lo hi) = lo := by
  unfold wordOf lowByte
  exact BitVec.extractLsb'_append_eq_right

theorem highByte_wordOf (lo hi : Byte) : highByte (wordOf lo hi) = hi := by
  unfold wordOf highByte
  exact BitVec.extractLsb'_append_eq_left

/-- The first operand byte, 0 where there is none. -/
def Instr.byte1 (i : Instr) : Byte := i.operandBytes.headD 0

/-- The second operand byte, 0 where there is none. -/
def Instr.byte2 (i : Instr) : Byte := i.operandBytes.tail.headD 0

/-- The instruction is found again from its form and its operand bytes (and, for a form with fewer than two, whatever
the unused fetched bytes are), its form is one of the 67, and its operand bytes fill its length. -/
def Laws.FormRoundTrip.Statement (i : Instr) : Prop :=
  (∀ b1 b2 : Byte, (1 ≤ i.operandBytes.length → b1 = i.byte1) → (2 ≤ i.operandBytes.length → b2 = i.byte2) →
    Instr.ofForm i.mnemonic i.mode b1 b2 = some i) ∧
  i.mode ∈ i.mnemonic.modes ∧ i.operandBytes.length + 1 = i.length

namespace Laws.FormRoundTrip

theorem ldaImm (v : Byte) : Statement (.ldaImm v) :=
  ⟨fun b1 _ h _ => by rw [h (Nat.le_refl 1)]; rfl, by simp [Instr.mode, Instr.mnemonic, Mnemonic.modes], rfl⟩
theorem ldaAbs (ea : Word) : Statement (.ldaAbs ea) :=
  ⟨fun b1 b2 h1 h2 => by
    rw [h1 (Nat.le_add_left 1 1), h2 (Nat.le_refl 2)]
    exact congrArg (fun w => some (Instr.ldaAbs w)) (wordOf_low_high ea), by simp [Instr.mode, Instr.mnemonic, Mnemonic.modes], rfl⟩
theorem ldxImm (v : Byte) : Statement (.ldxImm v) :=
  ⟨fun b1 _ h _ => by rw [h (Nat.le_refl 1)]; rfl, by simp [Instr.mode, Instr.mnemonic, Mnemonic.modes], rfl⟩
theorem ldxAbs (ea : Word) : Statement (.ldxAbs ea) :=
  ⟨fun b1 b2 h1 h2 => by
    rw [h1 (Nat.le_add_left 1 1), h2 (Nat.le_refl 2)]
    exact congrArg (fun w => some (Instr.ldxAbs w)) (wordOf_low_high ea), by simp [Instr.mode, Instr.mnemonic, Mnemonic.modes], rfl⟩
theorem ldyImm (v : Byte) : Statement (.ldyImm v) :=
  ⟨fun b1 _ h _ => by rw [h (Nat.le_refl 1)]; rfl, by simp [Instr.mode, Instr.mnemonic, Mnemonic.modes], rfl⟩
theorem ldyAbs (ea : Word) : Statement (.ldyAbs ea) :=
  ⟨fun b1 b2 h1 h2 => by
    rw [h1 (Nat.le_add_left 1 1), h2 (Nat.le_refl 2)]
    exact congrArg (fun w => some (Instr.ldyAbs w)) (wordOf_low_high ea), by simp [Instr.mode, Instr.mnemonic, Mnemonic.modes], rfl⟩
theorem tax : Statement .tax := ⟨fun _ _ _ _ => rfl, by decide, rfl⟩
theorem txa : Statement .txa := ⟨fun _ _ _ _ => rfl, by decide, rfl⟩
theorem tay : Statement .tay := ⟨fun _ _ _ _ => rfl, by decide, rfl⟩
theorem tya : Statement .tya := ⟨fun _ _ _ _ => rfl, by decide, rfl⟩
theorem tsx : Statement .tsx := ⟨fun _ _ _ _ => rfl, by decide, rfl⟩
theorem txs : Statement .txs := ⟨fun _ _ _ _ => rfl, by decide, rfl⟩
theorem sta (ea : Word) : Statement (.sta ea) :=
  ⟨fun b1 b2 h1 h2 => by
    rw [h1 (Nat.le_add_left 1 1), h2 (Nat.le_refl 2)]
    exact congrArg (fun w => some (Instr.sta w)) (wordOf_low_high ea), by simp [Instr.mode, Instr.mnemonic, Mnemonic.modes], rfl⟩
theorem stx (ea : Word) : Statement (.stx ea) :=
  ⟨fun b1 b2 h1 h2 => by
    rw [h1 (Nat.le_add_left 1 1), h2 (Nat.le_refl 2)]
    exact congrArg (fun w => some (Instr.stx w)) (wordOf_low_high ea), by simp [Instr.mode, Instr.mnemonic, Mnemonic.modes], rfl⟩
theorem sty (ea : Word) : Statement (.sty ea) :=
  ⟨fun b1 b2 h1 h2 => by
    rw [h1 (Nat.le_add_left 1 1), h2 (Nat.le_refl 2)]
    exact congrArg (fun w => some (Instr.sty w)) (wordOf_low_high ea), by simp [Instr.mode, Instr.mnemonic, Mnemonic.modes], rfl⟩
theorem adcImm (v : Byte) : Statement (.adcImm v) :=
  ⟨fun b1 _ h _ => by rw [h (Nat.le_refl 1)]; rfl, by simp [Instr.mode, Instr.mnemonic, Mnemonic.modes], rfl⟩
theorem adcAbs (ea : Word) : Statement (.adcAbs ea) :=
  ⟨fun b1 b2 h1 h2 => by
    rw [h1 (Nat.le_add_left 1 1), h2 (Nat.le_refl 2)]
    exact congrArg (fun w => some (Instr.adcAbs w)) (wordOf_low_high ea), by simp [Instr.mode, Instr.mnemonic, Mnemonic.modes], rfl⟩
theorem sbcImm (v : Byte) : Statement (.sbcImm v) :=
  ⟨fun b1 _ h _ => by rw [h (Nat.le_refl 1)]; rfl, by simp [Instr.mode, Instr.mnemonic, Mnemonic.modes], rfl⟩
theorem sbcAbs (ea : Word) : Statement (.sbcAbs ea) :=
  ⟨fun b1 b2 h1 h2 => by
    rw [h1 (Nat.le_add_left 1 1), h2 (Nat.le_refl 2)]
    exact congrArg (fun w => some (Instr.sbcAbs w)) (wordOf_low_high ea), by simp [Instr.mode, Instr.mnemonic, Mnemonic.modes], rfl⟩
theorem andImm (v : Byte) : Statement (.andImm v) :=
  ⟨fun b1 _ h _ => by rw [h (Nat.le_refl 1)]; rfl, by simp [Instr.mode, Instr.mnemonic, Mnemonic.modes], rfl⟩
theorem andAbs (ea : Word) : Statement (.andAbs ea) :=
  ⟨fun b1 b2 h1 h2 => by
    rw [h1 (Nat.le_add_left 1 1), h2 (Nat.le_refl 2)]
    exact congrArg (fun w => some (Instr.andAbs w)) (wordOf_low_high ea), by simp [Instr.mode, Instr.mnemonic, Mnemonic.modes], rfl⟩
theorem oraImm (v : Byte) : Statement (.oraImm v) :=
  ⟨fun b1 _ h _ => by rw [h (Nat.le_refl 1)]; rfl, by simp [Instr.mode, Instr.mnemonic, Mnemonic.modes], rfl⟩
theorem oraAbs (ea : Word) : Statement (.oraAbs ea) :=
  ⟨fun b1 b2 h1 h2 => by
    rw [h1 (Nat.le_add_left 1 1), h2 (Nat.le_refl 2)]
    exact congrArg (fun w => some (Instr.oraAbs w)) (wordOf_low_high ea), by simp [Instr.mode, Instr.mnemonic, Mnemonic.modes], rfl⟩
theorem eorImm (v : Byte) : Statement (.eorImm v) :=
  ⟨fun b1 _ h _ => by rw [h (Nat.le_refl 1)]; rfl, by simp [Instr.mode, Instr.mnemonic, Mnemonic.modes], rfl⟩
theorem eorAbs (ea : Word) : Statement (.eorAbs ea) :=
  ⟨fun b1 b2 h1 h2 => by
    rw [h1 (Nat.le_add_left 1 1), h2 (Nat.le_refl 2)]
    exact congrArg (fun w => some (Instr.eorAbs w)) (wordOf_low_high ea), by simp [Instr.mode, Instr.mnemonic, Mnemonic.modes], rfl⟩
theorem aslA : Statement .aslA := ⟨fun _ _ _ _ => rfl, by decide, rfl⟩
theorem aslAbs (ea : Word) : Statement (.aslAbs ea) :=
  ⟨fun b1 b2 h1 h2 => by
    rw [h1 (Nat.le_add_left 1 1), h2 (Nat.le_refl 2)]
    exact congrArg (fun w => some (Instr.aslAbs w)) (wordOf_low_high ea), by simp [Instr.mode, Instr.mnemonic, Mnemonic.modes], rfl⟩
theorem lsrA : Statement .lsrA := ⟨fun _ _ _ _ => rfl, by decide, rfl⟩
theorem lsrAbs (ea : Word) : Statement (.lsrAbs ea) :=
  ⟨fun b1 b2 h1 h2 => by
    rw [h1 (Nat.le_add_left 1 1), h2 (Nat.le_refl 2)]
    exact congrArg (fun w => some (Instr.lsrAbs w)) (wordOf_low_high ea), by simp [Instr.mode, Instr.mnemonic, Mnemonic.modes], rfl⟩
theorem rolA : Statement .rolA := ⟨fun _ _ _ _ => rfl, by decide, rfl⟩
theorem rolAbs (ea : Word) : Statement (.rolAbs ea) :=
  ⟨fun b1 b2 h1 h2 => by
    rw [h1 (Nat.le_add_left 1 1), h2 (Nat.le_refl 2)]
    exact congrArg (fun w => some (Instr.rolAbs w)) (wordOf_low_high ea), by simp [Instr.mode, Instr.mnemonic, Mnemonic.modes], rfl⟩
theorem rorA : Statement .rorA := ⟨fun _ _ _ _ => rfl, by decide, rfl⟩
theorem rorAbs (ea : Word) : Statement (.rorAbs ea) :=
  ⟨fun b1 b2 h1 h2 => by
    rw [h1 (Nat.le_add_left 1 1), h2 (Nat.le_refl 2)]
    exact congrArg (fun w => some (Instr.rorAbs w)) (wordOf_low_high ea), by simp [Instr.mode, Instr.mnemonic, Mnemonic.modes], rfl⟩
theorem inx : Statement .inx := ⟨fun _ _ _ _ => rfl, by decide, rfl⟩
theorem iny : Statement .iny := ⟨fun _ _ _ _ => rfl, by decide, rfl⟩
theorem dex : Statement .dex := ⟨fun _ _ _ _ => rfl, by decide, rfl⟩
theorem dey : Statement .dey := ⟨fun _ _ _ _ => rfl, by decide, rfl⟩
theorem cmpImm (v : Byte) : Statement (.cmpImm v) :=
  ⟨fun b1 _ h _ => by rw [h (Nat.le_refl 1)]; rfl, by simp [Instr.mode, Instr.mnemonic, Mnemonic.modes], rfl⟩
theorem cmpAbs (ea : Word) : Statement (.cmpAbs ea) :=
  ⟨fun b1 b2 h1 h2 => by
    rw [h1 (Nat.le_add_left 1 1), h2 (Nat.le_refl 2)]
    exact congrArg (fun w => some (Instr.cmpAbs w)) (wordOf_low_high ea), by simp [Instr.mode, Instr.mnemonic, Mnemonic.modes], rfl⟩
theorem cpxImm (v : Byte) : Statement (.cpxImm v) :=
  ⟨fun b1 _ h _ => by rw [h (Nat.le_refl 1)]; rfl, by simp [Instr.mode, Instr.mnemonic, Mnemonic.modes], rfl⟩
theorem cpxAbs (ea : Word) : Statement (.cpxAbs ea) :=
  ⟨fun b1 b2 h1 h2 => by
    rw [h1 (Nat.le_add_left 1 1), h2 (Nat.le_refl 2)]
    exact congrArg (fun w => some (Instr.cpxAbs w)) (wordOf_low_high ea), by simp [Instr.mode, Instr.mnemonic, Mnemonic.modes], rfl⟩
theorem cpyImm (v : Byte) : Statement (.cpyImm v) :=
  ⟨fun b1 _ h _ => by rw [h (Nat.le_refl 1)]; rfl, by simp [Instr.mode, Instr.mnemonic, Mnemonic.modes], rfl⟩
theorem cpyAbs (ea : Word) : Statement (.cpyAbs ea) :=
  ⟨fun b1 b2 h1 h2 => by
    rw [h1 (Nat.le_add_left 1 1), h2 (Nat.le_refl 2)]
    exact congrArg (fun w => some (Instr.cpyAbs w)) (wordOf_low_high ea), by simp [Instr.mode, Instr.mnemonic, Mnemonic.modes], rfl⟩
theorem bit (ea : Word) : Statement (.bit ea) :=
  ⟨fun b1 b2 h1 h2 => by
    rw [h1 (Nat.le_add_left 1 1), h2 (Nat.le_refl 2)]
    exact congrArg (fun w => some (Instr.bit w)) (wordOf_low_high ea), by simp [Instr.mode, Instr.mnemonic, Mnemonic.modes], rfl⟩
theorem bpl (off : Byte) : Statement (.bpl off) :=
  ⟨fun b1 _ h _ => by rw [h (Nat.le_refl 1)]; rfl, by simp [Instr.mode, Instr.mnemonic, Mnemonic.modes], rfl⟩
theorem bmi (off : Byte) : Statement (.bmi off) :=
  ⟨fun b1 _ h _ => by rw [h (Nat.le_refl 1)]; rfl, by simp [Instr.mode, Instr.mnemonic, Mnemonic.modes], rfl⟩
theorem bvc (off : Byte) : Statement (.bvc off) :=
  ⟨fun b1 _ h _ => by rw [h (Nat.le_refl 1)]; rfl, by simp [Instr.mode, Instr.mnemonic, Mnemonic.modes], rfl⟩
theorem bvs (off : Byte) : Statement (.bvs off) :=
  ⟨fun b1 _ h _ => by rw [h (Nat.le_refl 1)]; rfl, by simp [Instr.mode, Instr.mnemonic, Mnemonic.modes], rfl⟩
theorem bcc (off : Byte) : Statement (.bcc off) :=
  ⟨fun b1 _ h _ => by rw [h (Nat.le_refl 1)]; rfl, by simp [Instr.mode, Instr.mnemonic, Mnemonic.modes], rfl⟩
theorem bcs (off : Byte) : Statement (.bcs off) :=
  ⟨fun b1 _ h _ => by rw [h (Nat.le_refl 1)]; rfl, by simp [Instr.mode, Instr.mnemonic, Mnemonic.modes], rfl⟩
theorem bne (off : Byte) : Statement (.bne off) :=
  ⟨fun b1 _ h _ => by rw [h (Nat.le_refl 1)]; rfl, by simp [Instr.mode, Instr.mnemonic, Mnemonic.modes], rfl⟩
theorem beq (off : Byte) : Statement (.beq off) :=
  ⟨fun b1 _ h _ => by rw [h (Nat.le_refl 1)]; rfl, by simp [Instr.mode, Instr.mnemonic, Mnemonic.modes], rfl⟩
theorem jmp (ea : Word) : Statement (.jmp ea) :=
  ⟨fun b1 b2 h1 h2 => by
    rw [h1 (Nat.le_add_left 1 1), h2 (Nat.le_refl 2)]
    exact congrArg (fun w => some (Instr.jmp w)) (wordOf_low_high ea), by simp [Instr.mode, Instr.mnemonic, Mnemonic.modes], rfl⟩
theorem jsr (ea : Word) : Statement (.jsr ea) :=
  ⟨fun b1 b2 h1 h2 => by
    rw [h1 (Nat.le_add_left 1 1), h2 (Nat.le_refl 2)]
    exact congrArg (fun w => some (Instr.jsr w)) (wordOf_low_high ea), by simp [Instr.mode, Instr.mnemonic, Mnemonic.modes], rfl⟩
theorem rts : Statement .rts := ⟨fun _ _ _ _ => rfl, by decide, rfl⟩
theorem clc : Statement .clc := ⟨fun _ _ _ _ => rfl, by decide, rfl⟩
theorem sec : Statement .sec := ⟨fun _ _ _ _ => rfl, by decide, rfl⟩
theorem cli : Statement .cli := ⟨fun _ _ _ _ => rfl, by decide, rfl⟩
theorem sei : Statement .sei := ⟨fun _ _ _ _ => rfl, by decide, rfl⟩
theorem clv : Statement .clv := ⟨fun _ _ _ _ => rfl, by decide, rfl⟩
theorem cld : Statement .cld := ⟨fun _ _ _ _ => rfl, by decide, rfl⟩
theorem sed : Statement .sed := ⟨fun _ _ _ _ => rfl, by decide, rfl⟩
theorem pha : Statement .pha := ⟨fun _ _ _ _ => rfl, by decide, rfl⟩
theorem pla : Statement .pla := ⟨fun _ _ _ _ => rfl, by decide, rfl⟩
theorem php : Statement .php := ⟨fun _ _ _ _ => rfl, by decide, rfl⟩
theorem plp : Statement .plp := ⟨fun _ _ _ _ => rfl, by decide, rfl⟩
theorem nop : Statement .nop := ⟨fun _ _ _ _ => rfl, by decide, rfl⟩

/-- The family's statement holds of every instruction. -/
theorem all (i : Instr) : Statement i := by
  cases i with
  | ldaImm v => exact ldaImm v
  | ldaAbs ea => exact ldaAbs ea
  | ldxImm v => exact ldxImm v
  | ldxAbs ea => exact ldxAbs ea
  | ldyImm v => exact ldyImm v
  | ldyAbs ea => exact ldyAbs ea
  | tax => exact tax
  | txa => exact txa
  | tay => exact tay
  | tya => exact tya
  | tsx => exact tsx
  | txs => exact txs
  | sta ea => exact sta ea
  | stx ea => exact stx ea
  | sty ea => exact sty ea
  | adcImm v => exact adcImm v
  | adcAbs ea => exact adcAbs ea
  | sbcImm v => exact sbcImm v
  | sbcAbs ea => exact sbcAbs ea
  | andImm v => exact andImm v
  | andAbs ea => exact andAbs ea
  | oraImm v => exact oraImm v
  | oraAbs ea => exact oraAbs ea
  | eorImm v => exact eorImm v
  | eorAbs ea => exact eorAbs ea
  | aslA => exact aslA
  | aslAbs ea => exact aslAbs ea
  | lsrA => exact lsrA
  | lsrAbs ea => exact lsrAbs ea
  | rolA => exact rolA
  | rolAbs ea => exact rolAbs ea
  | rorA => exact rorA
  | rorAbs ea => exact rorAbs ea
  | inx => exact inx
  | iny => exact iny
  | dex => exact dex
  | dey => exact dey
  | cmpImm v => exact cmpImm v
  | cmpAbs ea => exact cmpAbs ea
  | cpxImm v => exact cpxImm v
  | cpxAbs ea => exact cpxAbs ea
  | cpyImm v => exact cpyImm v
  | cpyAbs ea => exact cpyAbs ea
  | bit ea => exact bit ea
  | bpl off => exact bpl off
  | bmi off => exact bmi off
  | bvc off => exact bvc off
  | bvs off => exact bvs off
  | bcc off => exact bcc off
  | bcs off => exact bcs off
  | bne off => exact bne off
  | beq off => exact beq off
  | jmp ea => exact jmp ea
  | jsr ea => exact jsr ea
  | rts => exact rts
  | clc => exact clc
  | sec => exact sec
  | cli => exact cli
  | sei => exact sei
  | clv => exact clv
  | cld => exact cld
  | sed => exact sed
  | pha => exact pha
  | pla => exact pla
  | php => exact php
  | plp => exact plp
  | nop => exact nop

end Laws.FormRoundTrip

end Sys2Proof
end

