-- ==== Sys2Proof/Laws/Decode.lean ====
section
/-! SUPPORT. The laws of the opcode map's two lookups and of the decoder (30_encoding.md R64, R67; 40_step_cycle.md
R133). -/

namespace Sys2Proof

theorem OpcodeMap.rowOf_mem {m : OpcodeMap} {op : Byte} {r : OpcodeRow} (h : m.rowOf op = some r) :
    r ∈ m ∧ r.opcode = op :=
  ⟨List.mem_of_find?_eq_some h, by simpa using List.find?_some h⟩

theorem OpcodeMap.rowFor_mem {m : OpcodeMap} {mn : Mnemonic} {k : Mode} {r : OpcodeRow} (h : m.rowFor mn k = some r) :
    r ∈ m ∧ r.form = (mn, k) :=
  ⟨List.mem_of_find?_eq_some h, by simpa [OpcodeRow.form] using List.find?_some h⟩

/-- In a list without repeats under a function, the function's value finds its own element. -/
theorem find?_of_nodup {α β : Type} (f : α → β) (p : α → Bool) {l : List α} (hn : (l.map f).Nodup) {x : α} (hx : x ∈ l)
    (hp : ∀ y ∈ l, p y = true ↔ f y = f x) : l.find? p = some x := by
  cases h : l.find? p with
  | none => exact absurd ((hp x hx).mpr rfl) (by simpa using List.find?_eq_none.mp h x hx)
  | some y =>
    have hy := List.mem_of_find?_eq_some h
    exact congrArg some (List.inj_on_of_nodup_map hn hy hx ((hp y hy).mp (List.find?_some h)))

/-- What a well-formed map gives (30_encoding.md R67). -/
structure OpcodeMap.Lawful (m : OpcodeMap) : Prop where
  opcodes  : (m.map (·.opcode)).Nodup
  rows     : ∀ r ∈ m, r.mode ∈ r.mnemonic.modes
  forms    : (m.map (·.form)).Nodup
  complete : ∀ p ∈ formPairs, p ∈ m.map (·.form)

theorem OpcodeMap.lawful {m : OpcodeMap} (h : OpcodeMap.wf m = true) : m.Lawful := by
  simp only [OpcodeMap.wf, Bool.and_eq_true, decide_eq_true_eq, List.all_eq_true, OpcodeRow.wf] at h
  exact ⟨h.1.1.1, h.1.1.2, h.1.2, h.2⟩

theorem OpcodeMap.Lawful.rowOf_opcode {m : OpcodeMap} (h : m.Lawful) {r : OpcodeRow} (hr : r ∈ m) :
    m.rowOf r.opcode = some r :=
  find?_of_nodup (·.opcode) _ h.opcodes hr fun y _ => by simp

theorem OpcodeMap.Lawful.rowFor_form {m : OpcodeMap} (h : m.Lawful) {r : OpcodeRow} (hr : r ∈ m) :
    m.rowFor r.mnemonic r.mode = some r :=
  find?_of_nodup (·.form) _ h.forms hr fun y _ => by simp [OpcodeRow.form]

theorem mem_formPairs (mn : Mnemonic) (k : Mode) (h : k ∈ mn.modes) : (mn, k) ∈ formPairs :=
  List.mem_flatMap.mpr ⟨mn, by cases mn <;> decide, List.mem_map.mpr ⟨k, h, rfl⟩⟩

/-- A well-formed map has a row for every instruction. -/
theorem OpcodeMap.Lawful.row_exists {m : OpcodeMap} (h : m.Lawful) (i : Instr) :
    ∃ r ∈ m, r.form = (i.mnemonic, i.mode) := by
  have := h.complete _ (mem_formPairs i.mnemonic i.mode (Laws.FormRoundTrip.all i).2.1)
  simpa using this

/-- The default map is one (30_encoding.md R64). -/
theorem defaultOpcodeMap_wf : OpcodeMap.wf defaultOpcodeMap = true := by decide +kernel

/-- What the decoder's second half gives: an instruction of the row's form, its operand bytes the fetched ones. -/
theorem ofForm_some {mn : Mnemonic} {k : Mode} {b1 b2 : Byte} {i : Instr} (h : Instr.ofForm mn k b1 b2 = some i) :
    i.mnemonic = mn ∧ i.mode = k ∧ i.operandBytes = [b1, b2].take (k.length - 1) := by
  cases k <;> cases mn <;> first
    | (cases h; done)
    | (cases h; exact ⟨rfl, rfl, rfl⟩)
    | (cases h; exact ⟨rfl, rfl, by
        simp [Instr.operandBytes, Mode.length, lowByte_wordOf, highByte_wordOf]⟩)

/-- Every one of the 67 forms is an instruction, whatever the operand bytes. -/
theorem ofForm_isSome {mn : Mnemonic} {k : Mode} (h : k ∈ mn.modes) (b1 b2 : Byte) :
    (Instr.ofForm mn k b1 b2).isSome := by
  cases mn <;> cases k <;> first
    | rfl
    | exact absurd h (by decide)

/-- Everything the decoder can answer with an instruction (40_step_cycle.md R133). -/
theorem decode_ok {m : OpcodeMap} {op b1 b2 : Byte} {i : Instr} (h : decode m op b1 b2 = .ok i) :
    ∃ r ∈ m, m.rowOf op = some r ∧ r.opcode = op ∧ i.mnemonic = r.mnemonic ∧ i.mode = r.mode ∧
      i.operandBytes = [b1, b2].take (i.length - 1) := by
  unfold decode at h
  cases hr : m.rowOf op with
  | none => simp [hr] at h
  | some r =>
    simp only [hr] at h
    cases hf : Instr.ofForm r.mnemonic r.mode b1 b2 with
    | none => simp [hf] at h
    | some j =>
      simp only [hf, Except.ok.injEq] at h
      subst h
      obtain ⟨h1, h2, h3⟩ := ofForm_some hf
      exact ⟨r, (OpcodeMap.rowOf_mem hr).1, rfl, (OpcodeMap.rowOf_mem hr).2, h1, h2, by rw [h3, Instr.length, h2]⟩

/-- An opcode byte with no row is unrecognised (30_encoding.md R65). -/
theorem decode_unrecognised {m : OpcodeMap} {op : Byte} (b1 b2 : Byte) (h : m.rowOf op = none) :
    decode m op b1 b2 = .error (.unrecognised op) := by
  simp [decode, h]

/-- A row of a well-formed map decodes from its own opcode, with the operand bytes of the instruction. -/
theorem decode_of_row {m : OpcodeMap} (hm : m.Lawful) {r : OpcodeRow} (hr : r ∈ m) {i : Instr}
    (hf : r.form = (i.mnemonic, i.mode)) {b1 b2 : Byte} (h1 : 1 ≤ i.operandBytes.length → b1 = i.byte1)
    (h2 : 2 ≤ i.operandBytes.length → b2 = i.byte2) : decode m r.opcode b1 b2 = .ok i := by
  obtain ⟨e1, e2⟩ := Prod.mk.inj hf
  simp only [decode, hm.rowOf_opcode hr, e1, e2, (Laws.FormRoundTrip.all i).1 b1 b2 h1 h2]

end Sys2Proof
end

