-- ==== Sys2Proof/Laws/Pc.lean ====
section
/-! SUPPORT. The laws of the PC finalisation (40_step_cycle.md R135): everything `finish` and `advance` can answer. -/

namespace Sys2Proof.Machine

theorem pcAfter_inside {n : Nat} (h : n < 65536) : pcAfter n = BitVec.ofNat 16 n := by simp [pcAfter, h]

theorem pcAfter_past {n : Nat} (h : 65536 ≤ n) : pcAfter n = 0xFFFE := by simp [pcAfter, Nat.not_lt.mpr h]

/-- A word is its own finalised PC. -/
@[simp] theorem pcAfter_toNat (w : Word) : pcAfter w.toNat = w := by
  simp [pcAfter, w.isLt]

/-- A next PC that is not negative is taken, or becomes the sentinel past the end. -/
theorem State.finish_nat (s : State) (n : Nat) : s.finish (n : Int) = .next (s.setPc (pcAfter n)) := by
  unfold State.finish pcAfter Config.memorySize
  by_cases h : n < 65536
  · have h1 : ¬ ((65536 : Nat) : Int) ≤ (n : Int) := by omega
    have h2 : ¬ (n : Int) < 0 := by omega
    simp only [h1, h2, h, if_false, if_true]
    congr 2
  · have h1 : ((65536 : Nat) : Int) ≤ (n : Int) := by omega
    simp only [h1, h, if_false, if_true]
    rfl

theorem State.finish_nonneg (s : State) {npc : Int} (h : 0 ≤ npc) :
    s.finish npc = .next (s.setPc (pcAfter npc.toNat)) := by
  obtain ⟨n, rfl⟩ := Int.eq_ofNat_of_zero_le h
  exact s.finish_nat n

/-- A next PC below 0 follows `pc_negative_policy`. -/
theorem State.finish_negative (s : State) {npc : Int} (h : npc < 0) :
    s.finish npc = match s.params.pcNegativePolicy with
      | .fault => .fault .pcOutOfRange
      | .sentinel => .next (s.setPc 0xFFFE)
      | .wrap => .next (s.setPc (BitVec.ofInt 16 npc)) := by
  have h1 : ¬ ((Config.memorySize : Nat) : Int) ≤ npc := by unfold Config.memorySize; omega
  simp only [State.finish, h1, h, if_false, if_true]
  rfl

/-- A sequential instruction always has a next state. -/
theorem State.advance_eq (s : State) (len : Nat) :
    s.advance len = .next (s.setPc (pcAfter (s.pc.toNat + len))) := by
  unfold State.advance
  exact_mod_cast s.finish_nat (s.pc.toNat + len)

/-- Everything `finish` can do: a next state that differs in the PC alone, or the fault. -/
theorem State.finish_cases (s : State) (npc : Int) :
    (∃ w, s.finish npc = .next (s.setPc w)) ∨
      (s.finish npc = .fault .pcOutOfRange ∧ npc < 0 ∧ s.params.pcNegativePolicy = .fault) := by
  by_cases h : 0 ≤ npc
  · exact .inl ⟨_, s.finish_nonneg h⟩
  · have h : npc < 0 := by omega
    rw [s.finish_negative h]
    cases hp : s.params.pcNegativePolicy
    · exact .inr ⟨rfl, h, rfl⟩
    · exact .inl ⟨_, rfl⟩
    · exact .inl ⟨_, rfl⟩

/-- The unrecognised opcode always has a next state (40_step_cycle.md R136). -/
theorem State.skipUnrecognised_eq (s : State) :
    s.skipUnrecognised =
      .next (s.setPc (pcAfter (s.pc.toNat + s.params.unrecognisedOpcodeAdvance.val))) :=
  s.advance_eq _

/-- The handshake changes the PC alone. -/
theorem State.handshake_cases (s : State) :
    (s.pc ≠ 0xFFFE ∧ s.handshake = s) ∨
      (s.pc = 0xFFFE ∧ s.handshake = s.setPc (wordOf (s.memRead 0xFFFE) (s.memRead 0xFFFF))) := by
  by_cases h : s.pc = 0xFFFE
  · exact .inr ⟨h, by rw [State.handshake, Config.pcSentinel, if_pos h]; rfl⟩
  · exact .inl ⟨h, by rw [State.handshake, Config.pcSentinel, if_neg h]⟩

theorem State.handshake_eq_setPc (s : State) : s.handshake = s.setPc s.handshake.pc := by
  rcases s.handshake_cases with ⟨_, h⟩ | ⟨_, h⟩ <;> rw [h] <;> rfl

end Sys2Proof.Machine
end

