-- ==== Sys2Proof/Laws/Operations.lean ====
section
/-! SUPPORT. One lemma per shared operation: everything it can answer. The provers cite these instead of unfolding the
operations. -/

namespace Sys2Proof.Machine

theorem load_eq (r : Reg) (v : Byte) (len : Nat) (s : State) :
    load r v len s = .next ((s.putNZ r v).setPc (pcAfter (s.pc.toNat + len))) := by
  rw [load, State.advance_eq, State.putNZ_pc]

theorem transfer_eq (src dst : Reg) (s : State) :
    transfer src dst s = .next ((s.putNZ dst (s.reg src)).setPc (pcAfter (s.pc.toNat + 1))) :=
  load_eq dst (s.reg src) 1 s

theorem store_eq (r : Reg) (ea : Word) (s : State) :
    store r ea s = .next ((s.memWrite ea (s.reg r)).setPc (pcAfter (s.pc.toNat + 3))) := by
  rw [store, State.advance_eq, State.memWrite_pc]

theorem adc_eq (m : Byte) (len : Nat) (s : State) :
    adc m len s = .next (((s.setReg .a (adcResult s.flags s.a m)).setFlags (adcFlags s.flags s.a m)).setPc
      (pcAfter (s.pc.toNat + len))) := by
  rw [adc, State.advance_eq]; rfl

theorem sbc_eq (m : Byte) (len : Nat) (s : State) :
    sbc m len s = .next (((s.setReg .a (sbcResult s.flags s.a m)).setFlags (sbcFlags s.flags s.a m)).setPc
      (pcAfter (s.pc.toNat + len))) := by
  rw [sbc, State.advance_eq]; rfl

theorem logical_eq (v : Byte) (len : Nat) (s : State) :
    logical v len s = .next ((s.putNZ .a v).setPc (pcAfter (s.pc.toNat + len))) :=
  load_eq .a v len s

theorem shiftAcc_eq (op : Bool → Byte → Byte × Bool) (s : State) :
    shiftAcc op s = .next (((s.setReg .a (op s.flags.c s.a).1).setFlags (shiftFlags s.flags (op s.flags.c s.a))).setPc
      (pcAfter (s.pc.toNat + 1))) := by
  rw [shiftAcc, State.advance_eq]; rfl

theorem shiftMem_eq (op : Bool → Byte → Byte × Bool) (ea : Word) (s : State) :
    shiftMem op ea s =
      .next (((s.memWrite ea (op s.flags.c (s.memRead ea)).1).setFlags
        (shiftFlags s.flags (op s.flags.c (s.memRead ea)))).setPc (pcAfter (s.pc.toNat + 3))) := by
  rw [shiftMem, State.advance_eq]; rfl

theorem step8_eq (r : Reg) (delta : Byte) (s : State) :
    step8 r delta s = .next ((s.putNZ r (s.reg r + delta)).setPc (pcAfter (s.pc.toNat + 1))) :=
  load_eq r (s.reg r + delta) 1 s

theorem compareReg_eq (r : Reg) (m : Byte) (len : Nat) (s : State) :
    compareReg r m len s =
      .next ((s.setFlags (compareFlags s.flags (s.reg r) m)).setPc (pcAfter (s.pc.toNat + len))) := by
  rw [compareReg, State.advance_eq]; rfl

theorem putFlags_eq (f : Flags) (s : State) :
    putFlags f s = .next ((s.setFlags f).setPc (pcAfter (s.pc.toNat + 1))) := by
  rw [putFlags, State.advance_eq]; rfl

theorem branch_not_taken (off : Byte) (s : State) :
    branch false off s = .next (s.setPc (pcAfter (s.pc.toNat + 2))) := by
  have h := s.finish_nat (s.pc.toNat + 2)
  simpa [branch] using h

theorem branch_taken (off : Byte) (s : State) :
    branch true off s = s.finish ((s.pc.toNat : Int) + 2 + signedOffset off) := by
  simp [branch]

/-- A branch changes the PC alone, or is the fault. -/
theorem branch_cases (cond : Bool) (off : Byte) (s : State) :
    (∃ w, branch cond off s = .next (s.setPc w)) ∨
      (branch cond off s = .fault .pcOutOfRange ∧ cond = true ∧
        (s.pc.toNat : Int) + 2 + signedOffset off < 0 ∧ s.params.pcNegativePolicy = .fault) := by
  cases cond
  · exact .inl ⟨_, branch_not_taken off s⟩
  · rw [branch_taken]
    rcases s.finish_cases ((s.pc.toNat : Int) + 2 + signedOffset off) with h | ⟨h, hn, hp⟩
    · exact .inl h
    · exact .inr ⟨h, rfl, hn, hp⟩

/-- The signed offset is the byte read as a two's-complement number. -/
theorem signedOffset_eq_toInt (b : Byte) : signedOffset b = b.toInt := by
  unfold signedOffset
  rw [BitVec.toInt_eq_toNat_cond]
  split <;> split <;> omega

/-- A stack cell lies in the stack page, at 0x0100 + S (10_state.md R22). -/
theorem stackAddr_toNat (sp : Byte) : (stackAddr sp).toNat = 0x0100 + sp.toNat := by
  unfold stackAddr Config.stackBase
  have := sp.isLt
  simp [BitVec.toNat_add, BitVec.toNat_setWidth]
  omega

/-- A pull after a push gives the byte and the stack pointer back (20_memory.md R55, R56). -/
theorem State.pulledByte_push (s : State) (v : Byte) : (s.push v).pulledByte = v := by
  simp [State.pulledByte, State.memRead]

theorem State.pulled_push_s (s : State) (v : Byte) : (s.push v).pulled.s = s.s := by
  simp

end Sys2Proof.Machine
end

