-- ==== Sys2Proof/Laws/Exec.lean ====
section
/-! SUPPORT. What an instruction can do, said once: every instruction changes the state, keeping the parameters and the
assembler's state, and then finishes with a next PC that only a taken branch can make negative. Every invariant of the
step follows from this. -/

namespace Sys2Proof.Machine

/-- A sequential finish. -/
theorem seq_target (s : State) (len : Nat) : (0 : Int) ≤ (s.pc.toNat : Int) + (len : Int) := by positivity

/-- The end of an instruction, as `exec_inversion` describes it. -/
structure EndsAs (i : Instr) (s t : State) (npc : Int) : Prop where
  answer : exec i s = t.finish npc
  params : t.params = s.params
  asm    : t.asm = s.asm
  memWf  : s.mem.wf → t.mem.wf
  target : 0 ≤ npc ∨ (t = s ∧ ∃ off, takenBranch s.flags off i ∧ npc = (s.pc.toNat : Int) + 2 + signedOffset off)

/-- A sequential instruction that leaves memory alone. -/
theorem EndsAs.seq {i : Instr} {s t : State} {len : Nat} (h : exec i s = t.advance len) (hp : t.params = s.params)
    (ha : t.asm = s.asm) (hm : t.mem = s.mem) : ∃ u npc, EndsAs i s u npc :=
  ⟨t, _, h, hp, ha, fun hw => hm ▸ hw, .inl (seq_target t len)⟩

/-- A sequential instruction that writes one cell. -/
theorem EndsAs.seqWrite {i : Instr} {s t : State} {len : Nat} {a : Word} {v : Byte} (h : exec i s = t.advance len)
    (hp : t.params = s.params) (ha : t.asm = s.asm) (hm : t.mem = s.mem.write a.toNat v) : ∃ u npc, EndsAs i s u npc :=
  ⟨t, _, h, hp, ha, fun hw => hm ▸ Memory.write_wf hw (word_lt_memorySize a) v, .inl (seq_target t len)⟩

/-- A branch. -/
theorem EndsAs.branch {i : Instr} {s : State} {cond : Bool} {off : Byte} (h : exec i s = Machine.branch cond off s)
    (hb : cond = true → takenBranch s.flags off i) : ∃ u npc, EndsAs i s u npc := by
  cases cond
  · exact ⟨s, (s.pc.toNat : Int) + 2, h, rfl, rfl, id, .inl (by positivity)⟩
  · exact ⟨s, _, h.trans (branch_taken off s), rfl, rfl, id, .inr ⟨rfl, off, hb rfl, rfl⟩⟩

/-- Everything an instruction can do. -/
theorem exec_inversion (i : Instr) (s : State) : ∃ t npc, EndsAs i s t npc := by
  cases i with
  | ldaImm v => exact EndsAs.seq rfl rfl rfl rfl
  | ldaAbs ea => exact EndsAs.seq rfl rfl rfl rfl
  | ldxImm v => exact EndsAs.seq rfl rfl rfl rfl
  | ldxAbs ea => exact EndsAs.seq rfl rfl rfl rfl
  | ldyImm v => exact EndsAs.seq rfl rfl rfl rfl
  | ldyAbs ea => exact EndsAs.seq rfl rfl rfl rfl
  | tax => exact EndsAs.seq rfl rfl rfl rfl
  | txa => exact EndsAs.seq rfl rfl rfl rfl
  | tay => exact EndsAs.seq rfl rfl rfl rfl
  | tya => exact EndsAs.seq rfl rfl rfl rfl
  | tsx => exact EndsAs.seq rfl rfl rfl rfl
  | txs => exact EndsAs.seq rfl rfl rfl rfl
  | sta ea => exact EndsAs.seqWrite rfl rfl rfl rfl
  | stx ea => exact EndsAs.seqWrite rfl rfl rfl rfl
  | sty ea => exact EndsAs.seqWrite rfl rfl rfl rfl
  | adcImm v => exact EndsAs.seq rfl rfl rfl rfl
  | adcAbs ea => exact EndsAs.seq rfl rfl rfl rfl
  | sbcImm v => exact EndsAs.seq rfl rfl rfl rfl
  | sbcAbs ea => exact EndsAs.seq rfl rfl rfl rfl
  | andImm v => exact EndsAs.seq rfl rfl rfl rfl
  | andAbs ea => exact EndsAs.seq rfl rfl rfl rfl
  | oraImm v => exact EndsAs.seq rfl rfl rfl rfl
  | oraAbs ea => exact EndsAs.seq rfl rfl rfl rfl
  | eorImm v => exact EndsAs.seq rfl rfl rfl rfl
  | eorAbs ea => exact EndsAs.seq rfl rfl rfl rfl
  | aslA => exact EndsAs.seq rfl rfl rfl rfl
  | aslAbs ea => exact EndsAs.seqWrite rfl rfl rfl rfl
  | lsrA => exact EndsAs.seq rfl rfl rfl rfl
  | lsrAbs ea => exact EndsAs.seqWrite rfl rfl rfl rfl
  | rolA => exact EndsAs.seq rfl rfl rfl rfl
  | rolAbs ea => exact EndsAs.seqWrite rfl rfl rfl rfl
  | rorA => exact EndsAs.seq rfl rfl rfl rfl
  | rorAbs ea => exact EndsAs.seqWrite rfl rfl rfl rfl
  | inx => exact EndsAs.seq rfl rfl rfl rfl
  | iny => exact EndsAs.seq rfl rfl rfl rfl
  | dex => exact EndsAs.seq rfl rfl rfl rfl
  | dey => exact EndsAs.seq rfl rfl rfl rfl
  | cmpImm v => exact EndsAs.seq rfl rfl rfl rfl
  | cmpAbs ea => exact EndsAs.seq rfl rfl rfl rfl
  | cpxImm v => exact EndsAs.seq rfl rfl rfl rfl
  | cpxAbs ea => exact EndsAs.seq rfl rfl rfl rfl
  | cpyImm v => exact EndsAs.seq rfl rfl rfl rfl
  | cpyAbs ea => exact EndsAs.seq rfl rfl rfl rfl
  | bit ea => exact EndsAs.seq rfl rfl rfl rfl
  | bpl off => exact EndsAs.branch rfl fun h => ⟨branchTable[0], by simp [branchTable], rfl, h⟩
  | bmi off => exact EndsAs.branch rfl fun h => ⟨branchTable[1], by simp [branchTable], rfl, h⟩
  | bvc off => exact EndsAs.branch rfl fun h => ⟨branchTable[2], by simp [branchTable], rfl, h⟩
  | bvs off => exact EndsAs.branch rfl fun h => ⟨branchTable[3], by simp [branchTable], rfl, h⟩
  | bcc off => exact EndsAs.branch rfl fun h => ⟨branchTable[4], by simp [branchTable], rfl, h⟩
  | bcs off => exact EndsAs.branch rfl fun h => ⟨branchTable[5], by simp [branchTable], rfl, h⟩
  | bne off => exact EndsAs.branch rfl fun h => ⟨branchTable[6], by simp [branchTable], rfl, h⟩
  | beq off => exact EndsAs.branch rfl fun h => ⟨branchTable[7], by simp [branchTable], rfl, h⟩
  | jmp ea => exact ⟨s, _, rfl, rfl, rfl, id, .inl (Int.natCast_nonneg _)⟩
  | jsr ea => exact ⟨_, _, rfl, rfl, rfl, fun hw => Memory.write_wf hw (word_lt_memorySize _) _, .inl (Int.natCast_nonneg _)⟩
  | rts => exact ⟨s.pulled, _, rfl, rfl, rfl, id, .inl (by positivity)⟩
  | clc => exact EndsAs.seq rfl rfl rfl rfl
  | sec => exact EndsAs.seq rfl rfl rfl rfl
  | cli => exact EndsAs.seq rfl rfl rfl rfl
  | sei => exact EndsAs.seq rfl rfl rfl rfl
  | clv => exact EndsAs.seq rfl rfl rfl rfl
  | cld => exact EndsAs.seq rfl rfl rfl rfl
  | sed => exact EndsAs.seq rfl rfl rfl rfl
  | pha => exact EndsAs.seqWrite rfl rfl rfl rfl
  | pla =>
    refine EndsAs.seq (t := if s.params.plaSetsNz then (s.pulled.setReg .a s.pulledByte).setNZ s.pulledByte
      else s.pulled.setReg .a s.pulledByte) rfl ?_ ?_ ?_ <;> split <;> rfl
  | php => exact EndsAs.seqWrite rfl rfl rfl rfl
  | plp => exact EndsAs.seq rfl rfl rfl rfl
  | nop => exact EndsAs.seq rfl rfl rfl rfl

/-- A next state of an instruction keeps the parameters and the assembler's state, and canonical memory. -/
theorem exec_next_keeps {i : Instr} {s t : State} (h : exec i s = .next t) :
    t.params = s.params ∧ t.asm = s.asm ∧ (s.mem.wf → t.mem.wf) := by
  obtain ⟨u, npc, e⟩ := exec_inversion i s
  rw [e.answer] at h
  rcases u.finish_cases npc with ⟨w, hw⟩ | ⟨hf, -, -⟩
  · rw [hw] at h
    cases h
    exact ⟨e.params, e.asm, e.memWf⟩
  · rw [hf] at h
    cases h

/-- No instruction is refused. -/
theorem exec_not_refused (i : Instr) (s : State) (r : Refusal) : exec i s ≠ .refused r := by
  obtain ⟨u, npc, e⟩ := exec_inversion i s
  rw [e.answer]
  rcases u.finish_cases npc with ⟨w, hw⟩ | ⟨hf, -, -⟩
  · rw [hw]; nofun
  · rw [hf]; nofun

/-- The only fault of an instruction is a taken branch below 0 under `pc_negative_policy = fault`. -/
theorem exec_fault {i : Instr} {s : State} {f : Fault} (h : exec i s = .fault f) :
    f = .pcOutOfRange ∧ s.params.pcNegativePolicy = .fault ∧
      ∃ off, takenBranch s.flags off i ∧ (s.pc.toNat : Int) + 2 + signedOffset off < 0 := by
  obtain ⟨u, npc, e⟩ := exec_inversion i s
  rw [e.answer] at h
  rcases u.finish_cases npc with ⟨w, hw⟩ | ⟨hf, hn, hp⟩
  · rw [hw] at h
    cases h
  · rw [hf] at h
    cases h
    rcases e.target with ht | ⟨-, off, hb, hnpc⟩
    · omega
    · exact ⟨rfl, e.params ▸ hp, off, hb, hnpc ▸ hn⟩

/-- A step is an instruction at the state after the handshake, or the unrecognised opcode there. -/
theorem step_cases (s : State) :
    (∃ i, s.handshake.decodeAtPc = .ok i ∧ step s = exec i s.handshake) ∨
      (∃ e, s.handshake.decodeAtPc = .error e ∧ step s = s.handshake.skipUnrecognised) := by
  unfold step
  cases h : s.handshake.decodeAtPc with
  | ok i => exact .inl ⟨i, rfl, rfl⟩
  | error e => exact .inr ⟨e, rfl, rfl⟩

end Sys2Proof.Machine
end

