-- ==== Sys2Proof/Laws/Place.lean ====
section
/-! SUPPORT. The host's placing operation does what it says: the next step fetches the placed bytes. -/

namespace Sys2Proof.Machine

/-- Three bytes put at an address with two cells above it are what a fetch there reads. -/
theorem State.fetch_putBytes (s : State) (a : Word) (op b1 b2 : Byte) (h : a.toNat + 2 < 65536) :
    ((s.putBytes a op b1 b2).setPc a).fetch = (op, b1, b2) := by
  have i1 : a.toNat + 1 < Config.memorySize := by unfold Config.memorySize; omega
  have i2 : a.toNat + 2 < Config.memorySize := by unfold Config.memorySize; omega
  have m1 : (a.toNat + 1) % 65536 = a.toNat + 1 := Nat.mod_eq_of_lt (by omega)
  have m2 : (a.toNat + 2) % 65536 = a.toNat + 2 := Nat.mod_eq_of_lt h
  simp [State.fetch, State.putBytes, State.memRead, State.fetchByte, i1, i2, m1, m2, Memory.read_write]

/-- Bytes put clear of the vector's cells leave the vector as it was. -/
theorem State.vector_putBytes (s : State) (a : Word) (op b1 b2 : Byte) (h : a.toNat + 2 < 0xFFFE) :
    (s.putBytes a op b1 b2).memRead Config.vectorLow = s.memRead Config.vectorLow ∧
      (s.putBytes a op b1 b2).memRead Config.vectorHigh = s.memRead Config.vectorHigh := by
  have h1 : (a + 1).toNat = a.toNat + 1 := by rw [BitVec.toNat_add]; simp; omega
  have h2 : (a + 2).toNat = a.toNat + 2 := by rw [BitVec.toNat_add]; simp; omega
  have l : Config.vectorLow.toNat = 0xFFFE := rfl
  have g : Config.vectorHigh.toNat = 0xFFFF := rfl
  constructor
  · simp only [State.putBytes, State.memRead, State.memWrite_mem, Memory.read_write, h1, h2, l]
    rw [if_neg (by omega), if_neg (by omega), if_neg (by omega)]
  · simp only [State.putBytes, State.memRead, State.memWrite_mem, Memory.read_write, h1, h2, g]
    rw [if_neg (by omega), if_neg (by omega), if_neg (by omega)]

/-- The next step fetches the placed bytes. -/
theorem State.placeInstr_fetch (s : State) (op b1 b2 : Byte) :
    (s.placeInstr op b1 b2).handshake.fetch = (op, b1, b2) := by
  unfold State.placeInstr
  have l : Config.vectorLow.toNat = 0xFFFE := rfl
  have p : placeAddr.toNat = 0x0200 := rfl
  by_cases hs : s.pc = Config.pcSentinel
  · simp only [hs, if_true]
    by_cases ha : s.handshake.pc.toNat + 2 < Config.vectorLow.toNat
    · rw [if_pos ha]
      have hv := s.vector_putBytes s.handshake.pc op b1 b2 (by omega)
      have hpc : (s.putBytes s.handshake.pc op b1 b2).pc = Config.pcSentinel := hs
      have hh : (s.putBytes s.handshake.pc op b1 b2).handshake =
          (s.putBytes s.handshake.pc op b1 b2).setPc s.handshake.pc := by
        rw [State.handshake, if_pos hpc, hv.1, hv.2]
        simp [State.handshake, hs]
      rw [hh]
      exact s.fetch_putBytes _ op b1 b2 (by omega)
    · rw [if_neg ha]
      have hv := (s.putVector placeAddr).vector_putBytes placeAddr op b1 b2 (by rw [p]; omega)
      have hpc : ((s.putVector placeAddr).putBytes placeAddr op b1 b2).pc = Config.pcSentinel := hs
      have hl : (s.putVector placeAddr).memRead Config.vectorLow = lowByte placeAddr := by
        simp only [State.putVector, State.memRead_memWrite]; rfl
      have hg : (s.putVector placeAddr).memRead Config.vectorHigh = highByte placeAddr := by
        simp only [State.putVector, State.memRead_memWrite]; rfl
      have hw : wordOf (lowByte placeAddr) (highByte placeAddr) = placeAddr := by decide
      rw [State.handshake, if_pos hpc, hv.1, hv.2, hl, hg, hw]
      exact (s.putVector placeAddr).fetch_putBytes _ op b1 b2 (by rw [p]; omega)
  · have hh : s.handshake = s := by rw [State.handshake, if_neg hs]
    simp only [hs, if_false, hh]
    by_cases ha : s.pc.toNat + 2 < Config.memorySize
    · rw [if_pos ha]
      have hpc : (s.putBytes s.pc op b1 b2).pc ≠ Config.pcSentinel := hs
      rw [State.handshake, if_neg hpc]
      exact s.fetch_putBytes s.pc op b1 b2 ha
    · rw [if_neg ha]
      have hpc : ((s.setPc placeAddr).putBytes placeAddr op b1 b2).pc ≠ Config.pcSentinel := by
        change placeAddr ≠ _; decide
      rw [State.handshake, if_neg hpc]
      exact (s.setPc placeAddr).fetch_putBytes placeAddr op b1 b2 (by rw [p]; omega)

/-- Placing keeps the parameters. -/
theorem State.placeInstr_params (s : State) (op b1 b2 : Byte) : (s.placeInstr op b1 b2).params = s.params := by
  unfold State.placeInstr
  simp only
  split <;> split <;> rfl

/-- The step after a placing runs the instruction that the word decodes to, under the default map. -/
theorem State.step_withFetchWord (s : State) (nbits w : Nat) (i : Instr) (hm : s.params.opcodeMap = defaultOpcodeMap)
    (h : decodeTableWord nbits w = some i) :
    step (s.withFetchWord nbits w) = exec i (s.withFetchWord nbits w).handshake := by
  have hp : (s.withFetchWord nbits w).handshake.params = s.params := by
    rw [State.handshake_eq_setPc]
    exact s.placeInstr_params _ _ _
  have hd : (s.withFetchWord nbits w).handshake.decodeAtPc = .ok i := by
    unfold State.decodeAtPc State.withFetchWord
    rw [s.placeInstr_fetch]
    unfold State.withFetchWord at hp
    rw [hp, hm]
    unfold decodeTableWord at h
    simp only at h ⊢
    split at h
    · rename_i j hj
      rw [hj]
      exact congrArg Except.ok (Option.some.inj h)
    · cases h
  unfold step
  rw [hd]

end Sys2Proof.Machine
end

