-- ==== Sys2Proof/Laws/Terms.lean ====
section
/-! SUPPORT. The terms of Safety.lean against the machine's own operations: the arithmetic of bytes, the handshake and
the fetch, the flag computations, the branches. -/

namespace Sys2Proof.Machine

-- Bytes plus and minus 1

theorem byte_add_one (b : Byte) : b + 1 = BitVec.ofNat 8 (b.toNat + 1) := by
  apply BitVec.eq_of_toNat_eq
  simp [BitVec.toNat_add]

theorem byte_sub (b m : Byte) : b - m = BitVec.ofInt 8 ((b.toNat : Int) - m.toNat) := by
  apply BitVec.eq_of_toInt_eq
  rw [BitVec.toInt_sub, BitVec.toInt_ofInt, BitVec.toInt_eq_toNat_bmod b, BitVec.toInt_eq_toNat_bmod m]
  simp

theorem byte_sub_one (b : Byte) : b - 1 = BitVec.ofInt 8 ((b.toNat : Int) - 1) := byte_sub b 1

theorem byte_add_neg_one (b : Byte) : b + -1 = BitVec.ofInt 8 ((b.toNat : Int) - 1) := by
  rw [← byte_sub_one, BitVec.sub_eq_add_neg]

/-- The stack cell of the next pull. -/
theorem stackAddr_add_one (b : Byte) : (stackAddr (b + 1)).toNat = 0x0100 + (b.toNat + 1) % 256 := by
  rw [stackAddr_toNat, BitVec.toNat_add]
  rfl

-- The handshake and the fetch (40_step_cycle.md R131, R132)

theorem vectorWord_eq (s : State) : vectorWord s = wordOf (s.memRead 0xFFFE) (s.memRead 0xFFFF) := by
  unfold vectorWord wordOf State.memRead
  apply BitVec.eq_of_toNat_eq
  rw [BitVec.toNat_append, Nat.shiftLeft_eq, BitVec.toNat_ofNat]
  have := (s.mem.read 0xFFFE).isLt
  have := (s.mem.read 0xFFFF).isLt
  rw [show (s.mem.read (0xFFFF : Word).toNat).toNat * 2 ^ 8 ||| (s.mem.read (0xFFFE : Word).toNat).toNat =
    2 ^ 8 * (s.mem.read 0xFFFF).toNat + (s.mem.read 0xFFFE).toNat by
      rw [Nat.two_pow_add_eq_or_of_lt (by assumption), Nat.mul_comm]; rfl]
  omega

theorem State.decodeAtPc_eq (s : State) : s.decodeAtPc = instrAt s s.pc := rfl

theorem State.handshake_of_sentinel {s : State} (h : s.pc = 0xFFFE) : s.handshake = s.setPc (vectorWord s) := by
  rcases s.handshake_cases with ⟨h1, _⟩ | ⟨_, h1⟩
  · exact absurd h h1
  · rw [h1, ← vectorWord_eq]

theorem State.handshake_of_ne {s : State} (h : s.pc ≠ 0xFFFE) : s.handshake = s := by
  rcases s.handshake_cases with ⟨_, h1⟩ | ⟨h1, _⟩
  · exact h1
  · exact absurd h1 h

/-- The handshake changes neither memory nor the map, so the instruction it leads to is the one at its PC. -/
theorem State.handshake_decodeAtPc (s : State) : s.handshake.decodeAtPc = instrAt s s.handshake.pc := by
  rw [s.handshake_eq_setPc]
  rfl

-- Flags (42_arithmetic.md R180, R181; 43_logical_shift.md R195 to R198; 44_incdec_compare_bit.md R215)

theorem decimalOperand_toNat (d : Bool) (m : Byte) : (decimalOperand d m).toNat = decimalValue d m := by
  cases d
  · rfl
  · revert m; decide +kernel

theorem overflowHeuristic_eq (m r : Byte) : overflowHeuristic m r = (m.toNat.testBit 7 == r.toNat.testBit 7) := by
  have top : ∀ x : Byte, decide (x &&& 0x80 = 0) = !x.toNat.testBit 7 := by decide +kernel
  rw [overflowHeuristic, top, BitVec.toNat_xor, Nat.testBit_xor]
  cases m.toNat.testBit 7 <;> cases r.toNat.testBit 7 <;> rfl

theorem aslOf_eq (c : Bool) (v : Byte) : aslOf c v = (BitVec.ofNat 8 (v.toNat * 2), decide (128 ≤ v.toNat)) := by
  revert c v; decide +kernel

theorem lsrOf_eq (c : Bool) (v : Byte) : lsrOf c v = (BitVec.ofNat 8 (v.toNat / 2), decide (v.toNat % 2 = 1)) := by
  revert c v; decide +kernel

theorem rolOf_eq (c : Bool) (v : Byte) :
    rolOf c v = (BitVec.ofNat 8 (v.toNat * 2 + c.toNat), decide (128 ≤ v.toNat)) := by
  revert c v; decide +kernel

theorem rorOf_eq (c : Bool) (v : Byte) :
    rorOf c v = (BitVec.ofNat 8 (v.toNat / 2 + 128 * c.toNat), decide (v.toNat % 2 = 1)) := by
  revert c v; decide +kernel

theorem compareFlags_eq (f : Flags) (r m : Byte) : compareFlags f r m = comparedFlags f r m := by
  have h : (r.toNat < m.toNat) ↔ ((r.toNat : Int) - m.toNat < 0) := by omega
  unfold compareFlags comparedFlags
  simp only [byte_sub r m, h]
  rfl

-- Instructions whose meaning is not one of the shared operations' plain results

/-- A branch of the table, as the shared operation. -/
theorem exec_branchTable (s : State) (off : Byte) :
    ∀ p ∈ branchTable, exec (p.1 off) s = branch (p.2 s.flags) off s := by
  intro p hp
  simp only [branchTable, List.mem_cons, List.not_mem_nil, or_false] at hp
  rcases hp with rfl | rfl | rfl | rfl | rfl | rfl | rfl | rfl <;> rfl

theorem exec_takenBranch {s : State} {i : Instr} {off : Byte} (h : takenBranch s.flags off i) :
    exec i s = branch true off s := by
  obtain ⟨p, hp, rfl, hc⟩ := h
  rw [exec_branchTable s off p hp, hc]

/-- PLA as one update: A, then the flags that `pla_sets_nz` says. -/
theorem exec_pla (s : State) :
    exec .pla s = ((s.pulled.setReg .a s.pulledByte).setFlags
      (if s.params.plaSetsNz then s.flags.setNZ s.pulledByte else s.flags)).advance 1 := by
  change (if s.params.plaSetsNz then _ else _ : State).advance 1 = _
  cases s.params.plaSetsNz <;> rfl

/-- The finish of an instruction changes the PC alone. -/
theorem State.of_finish {s t : State} {npc : Int} (h : s.finish npc = .next t) : ∃ w, t = s.setPc w := by
  rcases s.finish_cases npc with ⟨w, hw⟩ | ⟨hf, -, -⟩
  · rw [hw] at h
    cases h
    exact ⟨w, rfl⟩
  · rw [hf] at h
    cases h

/-- The PC after a sequential instruction is never the address of that instruction, unless that is the sentinel. -/
theorem pcAfter_add_ne {w : Word} {k : Nat} (h0 : 0 < k) (hk : k ≤ 3) (hw : w ≠ 0xFFFE) : pcAfter (w.toNat + k) ≠ w := by
  intro h
  have hn : w.toNat ≠ 65534 := fun e => hw (BitVec.eq_of_toNat_eq e)
  have e := congrArg BitVec.toNat h
  unfold pcAfter at e
  split at e
  · rw [BitVec.toNat_ofNat, Nat.mod_eq_of_lt (by omega)] at e
    omega
  · exact hn e.symm

/-- An instruction is a jump, a call, a return, a branch, or it advances by its own length. -/
theorem exec_shape (i : Instr) (s : State) :
    (∃ t : State, exec i s = t.advance i.length ∧ t.pc = s.pc) ∨ (∃ w, i = .jmp w) ∨ (∃ w, i = .jsr w) ∨ i = .rts ∨
      ∃ p ∈ branchTable, ∃ off, i = p.1 off := by
  cases i with
  | jmp w => exact .inr (.inl ⟨w, rfl⟩)
  | jsr w => exact .inr (.inr (.inl ⟨w, rfl⟩))
  | rts => exact .inr (.inr (.inr (.inl rfl)))
  | bpl off => exact .inr (.inr (.inr (.inr ⟨branchTable[0], by simp [branchTable], off, rfl⟩)))
  | bmi off => exact .inr (.inr (.inr (.inr ⟨branchTable[1], by simp [branchTable], off, rfl⟩)))
  | bvc off => exact .inr (.inr (.inr (.inr ⟨branchTable[2], by simp [branchTable], off, rfl⟩)))
  | bvs off => exact .inr (.inr (.inr (.inr ⟨branchTable[3], by simp [branchTable], off, rfl⟩)))
  | bcc off => exact .inr (.inr (.inr (.inr ⟨branchTable[4], by simp [branchTable], off, rfl⟩)))
  | bcs off => exact .inr (.inr (.inr (.inr ⟨branchTable[5], by simp [branchTable], off, rfl⟩)))
  | bne off => exact .inr (.inr (.inr (.inr ⟨branchTable[6], by simp [branchTable], off, rfl⟩)))
  | beq off => exact .inr (.inr (.inr (.inr ⟨branchTable[7], by simp [branchTable], off, rfl⟩)))
  | pla => exact .inl ⟨_, exec_pla s, rfl⟩
  | _ => exact .inl ⟨_, rfl, rfl⟩

end Sys2Proof.Machine
end

