-- ==== Sys2Proof/Laws/Session.lean ====
section
/-! SUPPORT. The host's side: halted states, and everything a call of the host can do to a session. -/

namespace Sys2Proof.Machine

/-- A halted state is one that a step returns unchanged (70_reset_and_hazards.md R303). -/
theorem State.halted_iff (s : State) : s.halted = true ↔ step s = .next s := by
  unfold State.halted
  split
  next t h => rw [h, decide_eq_true_iff]; exact ⟨congrArg _, fun e => by cases e; rfl⟩
  next h => exact ⟨fun e => (nomatch e), fun e => absurd e (h s)⟩

/-- An assembly leaves its own outcome, or the reset state with the fault (70_reset_and_hazards.md R295). -/
theorem Session.assembleCall_cases (c : Session) (source : Text) :
    (∃ t rs, assemble source c.state = .completed t rs ∧ c.assembleCall source = (⟨t, none⟩, .completed rs)) ∨
    ∃ f rs, assemble source c.state = .refused f rs ∧
      c.assembleCall source = (⟨State.resetWith c.state.params, some f⟩, .refused rs) := by
  unfold Session.assembleCall
  cases h : assemble source c.state with
  | completed t rs => exact .inl ⟨t, rs, rfl, rfl⟩
  | refused f rs => exact .inr ⟨f, rs, rfl, rfl⟩

/-- A step leaves its next state, or the state it was taken from (60_exceptions.md R272). -/
theorem Session.stepCall_cases (c : Session) :
    (∃ t, c.fault = none ∧ step c.state = .next t ∧ c.stepCall = (⟨t, none⟩, .stepped)) ∨
    (∃ f, c.fault = some f ∧ c.stepCall = (c, .faulted f)) ∨
    (∃ f, c.fault = none ∧ step c.state = .fault f ∧ c.stepCall = (⟨c.state, some f⟩, .faulted f)) ∨
    ∃ r, c.fault = none ∧ step c.state = .refused r ∧ c.stepCall = (c, .unmodelled r) := by
  unfold Session.stepCall
  cases c.fault with
  | some f => exact .inr (.inl ⟨f, rfl, rfl⟩)
  | none =>
    cases h : step c.state with
    | next t => exact .inl ⟨t, rfl, rfl, rfl⟩
    | fault f => exact .inr (.inr (.inl ⟨f, rfl, rfl, rfl⟩))
    | refused r => exact .inr (.inr (.inr ⟨r, rfl, rfl, rfl⟩))

end Sys2Proof.Machine
end

