-- ==== Sys2Proof/Tests/Slice0.lean ====
section
/-! SUPPORT. The model's own tests: ill-formed terms that the checks refuse, the decoding of a word of every constructor,
one-step tests from spec/95_test_vectors.md, lines of the assembler, and for every obligation with hypotheses a witness
that meets them. Expected results come from spec/, never from the model. -/

namespace Sys2Proof.Tests

-- One test after another: many kernel evaluations at once would each hold a thread and its stack.
set_option Elab.async false

open Sys2Proof Sys2Proof.Machine

-- Helpers

/-- Exactly the named flags set. -/
def flagged (ks : List FlagName) : Flags := ks.foldl (fun f k => f.put k true) Flags.clear

/-- The reset state with the PC at an address. -/
def cpu (pc : Word) : State := { State.reset with pc := pc }

/-- Bytes stored from an address on. -/
def stored (a : Nat) (bytes : List Byte) (s : State) : State :=
  { s with mem := (bytes.zipIdx a).foldl (fun m p => m.write p.2 p.1) s.mem }

/-- Bytes stored where the PC points. -/
def coded (bytes : List Byte) (s : State) : State := stored s.pc.toNat bytes s

/-- The state after a step, if the step has a next state. -/
def after (s : State) : Option State :=
  match step s with
  | .next t => some t
  | _ => none

/-- The fault of a step, if it has one. -/
def faultOf (s : State) : Option Fault :=
  match step s with
  | .fault f => some f
  | _ => none

theorem step_of_after {s t : State} (h : after s = some t) : step s = .next t := by
  unfold after at h
  split at h
  · rename_i u hu
    rw [hu, Option.some.inj h]
  · cases h

/-- Two admissible parameter sets beside the default. -/
def sentinelParams : Params := { defaultParams with pcNegativePolicy := .sentinel }

/-- PLA sets N and Z. -/
def nzPlaParams : Params := { defaultParams with plaSetsNz := true }

/-- The wrap policy. -/
def wrapParams : Params := { defaultParams with pcNegativePolicy := .wrap }

/-- Another well-formed opcode map: every opcode complemented. -/
def otherMap : OpcodeMap := defaultOpcodeMap.map fun r => { r with opcode := ~~~r.opcode }

-- Ill-formed terms are refused (30_encoding.md R64, R67; WellFormed.lean)

theorem test_wf_default_map : OpcodeMap.wf defaultOpcodeMap = true := by decide +kernel

theorem test_wf_other_map : OpcodeMap.wf otherMap = true := by decide +kernel

theorem test_wf_refuses_duplicate_opcode :
    OpcodeMap.wf (defaultOpcodeMap.map fun r => if r.opcode = 0xEA then { r with opcode := 0xA9 } else r) = false := by
  decide +kernel

theorem test_wf_refuses_foreign_form : OpcodeMap.wf (⟨0xFF, .sta, .imm⟩ :: defaultOpcodeMap) = false := by decide +kernel

theorem test_wf_refuses_duplicate_form : OpcodeMap.wf (⟨0xFF, .nop, .null⟩ :: defaultOpcodeMap) = false := by
  decide +kernel

theorem test_wf_refuses_missing_form : OpcodeMap.wf (defaultOpcodeMap.filter fun r => r.opcode != 0xEA) = false := by
  decide +kernel

theorem test_wf_refuses_parameters : ({ defaultParams with opcodeMap := [] } : Params).wf = false := by decide

theorem test_wf_instr : Instr.wf defaultOpcodeMap .nop = true := by decide

theorem test_wf_refuses_instr_without_row : Instr.wf jumpRows .nop = false := by decide

theorem test_wf_refuses_unsorted_memory : ¬ (Memory.mk [(2, 0), (1, 0)]).wf := by decide

theorem test_wf_refuses_fill_value : ¬ (Memory.mk [(2, 0xFF)]).wf := by decide

theorem test_wf_refuses_far_cell : ¬ (Memory.mk [(65536, 0)]).wf := by decide

-- Decoding: a word of every constructor, written out from 30_encoding.md R60, R61, R64 (byte 0 in bits 7 to 0)

theorem test_decode_load_store_1 :
    decodeTableWord 16 0x9CA9 = some (.ldaImm 0x9C) ∧
    decodeTableWord 24 0x1234AD = some (.ldaAbs 0x1234) ∧
    decodeTableWord 16 0x9CA2 = some (.ldxImm 0x9C) ∧
    decodeTableWord 24 0x1234AE = some (.ldxAbs 0x1234) ∧
    decodeTableWord 16 0x9CA0 = some (.ldyImm 0x9C) ∧
    decodeTableWord 24 0x1234AC = some (.ldyAbs 0x1234) ∧
    decodeTableWord 8 0xAA = some .tax ∧
    decodeTableWord 8 0x8A = some .txa := by decide

theorem test_decode_load_store_2 :
    decodeTableWord 8 0xA8 = some .tay ∧
    decodeTableWord 8 0x98 = some .tya ∧
    decodeTableWord 8 0xBA = some .tsx ∧
    decodeTableWord 8 0x9A = some .txs ∧
    decodeTableWord 24 0x12348D = some (.sta 0x1234) ∧
    decodeTableWord 24 0x12348E = some (.stx 0x1234) ∧
    decodeTableWord 24 0x12348C = some (.sty 0x1234) := by decide

theorem test_decode_arithmetic :
    decodeTableWord 16 0x9C69 = some (.adcImm 0x9C) ∧
    decodeTableWord 24 0x12346D = some (.adcAbs 0x1234) ∧
    decodeTableWord 16 0x9CE9 = some (.sbcImm 0x9C) ∧
    decodeTableWord 24 0x1234ED = some (.sbcAbs 0x1234) := by decide

theorem test_decode_logical_shift_1 :
    decodeTableWord 16 0x9C29 = some (.andImm 0x9C) ∧
    decodeTableWord 24 0x12342D = some (.andAbs 0x1234) ∧
    decodeTableWord 16 0x9C09 = some (.oraImm 0x9C) ∧
    decodeTableWord 24 0x12340D = some (.oraAbs 0x1234) ∧
    decodeTableWord 16 0x9C49 = some (.eorImm 0x9C) ∧
    decodeTableWord 24 0x12344D = some (.eorAbs 0x1234) ∧
    decodeTableWord 8 0x0A = some .aslA ∧
    decodeTableWord 24 0x12340E = some (.aslAbs 0x1234) := by decide

theorem test_decode_logical_shift_2 :
    decodeTableWord 8 0x4A = some .lsrA ∧
    decodeTableWord 24 0x12344E = some (.lsrAbs 0x1234) ∧
    decodeTableWord 8 0x2A = some .rolA ∧
    decodeTableWord 24 0x12342E = some (.rolAbs 0x1234) ∧
    decodeTableWord 8 0x6A = some .rorA ∧
    decodeTableWord 24 0x12346E = some (.rorAbs 0x1234) := by decide

theorem test_decode_compare_1 :
    decodeTableWord 8 0xE8 = some .inx ∧
    decodeTableWord 8 0xC8 = some .iny ∧
    decodeTableWord 8 0xCA = some .dex ∧
    decodeTableWord 8 0x88 = some .dey ∧
    decodeTableWord 16 0x9CC9 = some (.cmpImm 0x9C) ∧
    decodeTableWord 24 0x1234CD = some (.cmpAbs 0x1234) ∧
    decodeTableWord 16 0x9CE0 = some (.cpxImm 0x9C) ∧
    decodeTableWord 24 0x1234EC = some (.cpxAbs 0x1234) := by decide

theorem test_decode_compare_2 :
    decodeTableWord 16 0x9CC0 = some (.cpyImm 0x9C) ∧
    decodeTableWord 24 0x1234CC = some (.cpyAbs 0x1234) ∧
    decodeTableWord 24 0x12342C = some (.bit 0x1234) := by decide

theorem test_decode_branch :
    decodeTableWord 16 0x9C10 = some (.bpl 0x9C) ∧
    decodeTableWord 16 0x9C30 = some (.bmi 0x9C) ∧
    decodeTableWord 16 0x9C50 = some (.bvc 0x9C) ∧
    decodeTableWord 16 0x9C70 = some (.bvs 0x9C) ∧
    decodeTableWord 16 0x9C90 = some (.bcc 0x9C) ∧
    decodeTableWord 16 0x9CB0 = some (.bcs 0x9C) ∧
    decodeTableWord 16 0x9CD0 = some (.bne 0x9C) ∧
    decodeTableWord 16 0x9CF0 = some (.beq 0x9C) := by decide

theorem test_decode_jump :
    decodeTableWord 24 0x12344C = some (.jmp 0x1234) ∧
    decodeTableWord 24 0x123420 = some (.jsr 0x1234) ∧
    decodeTableWord 8 0x60 = some .rts := by decide

theorem test_decode_flag_stack_1 :
    decodeTableWord 8 0x18 = some .clc ∧
    decodeTableWord 8 0x38 = some .sec ∧
    decodeTableWord 8 0x58 = some .cli ∧
    decodeTableWord 8 0x78 = some .sei ∧
    decodeTableWord 8 0xB8 = some .clv ∧
    decodeTableWord 8 0xD8 = some .cld ∧
    decodeTableWord 8 0xF8 = some .sed ∧
    decodeTableWord 8 0x48 = some .pha := by decide

theorem test_decode_flag_stack_2 :
    decodeTableWord 8 0x68 = some .pla ∧
    decodeTableWord 8 0x08 = some .php ∧
    decodeTableWord 8 0x28 = some .plp ∧
    decodeTableWord 8 0xEA = some .nop := by decide

/-- The operand bits above the given ones are 0. -/
theorem test_decode_short_word : decodeTableWord 8 0xAD = some (.ldaAbs 0) ∧ decodeTableWord 8 0xA9 = some (.ldaImm 0) := by
  decide

/-- Bytes that 30_encoding.md R65 lists are refused by name. -/
theorem test_decode_refuses : decode defaultOpcodeMap 0x00 1 2 = .error (.unrecognised 0x00) ∧
    decode defaultOpcodeMap 0xB1 1 2 = .error (.unrecognised 0xB1) ∧
    decode defaultOpcodeMap 0xFF 1 2 = .error (.unrecognised 0xFF) ∧
    decode [⟨0x02, .sta, .imm⟩] 0x02 1 2 = .error (.foreignRow 0x02) ∧
    decodeBytes defaultOpcodeMap [0xAD, 0x10] = .error (.truncated 0xAD) ∧
    decodeBytes defaultOpcodeMap [] = .error .noBytes := by decide

/-- The encoder's words (30_encoding.md R61). -/
theorem test_encode_words : encode defaultOpcodeMap (.jmp 0x0010) = some [0x4C, 0x10, 0x00] ∧
    encode defaultOpcodeMap (.ldaImm 0x05) = some [0xA9, 0x05] ∧ encode defaultOpcodeMap .rts = some [0x60] ∧
    encode jumpRows .nop = none := by decide

-- One step (95_test_vectors.md L2): each name ends in its vector's number

theorem test_ldaImm_lt1 :
    (after (coded [0xA9, 0x00] { cpu 0x0200 with a := 0x55, flags := flagged [.n] })).map
      (fun t => (t.a, t.flags, t.pc)) = some (0x00, flagged [.z], 0x0202) := by decide

theorem test_ldaImm_lt2 :
    (after (coded [0xA9, 0x80] { cpu 0x0200 with flags := flagged [.z] })).map
      (fun t => (t.a, t.flags, t.pc)) = some (0x80, flagged [.n], 0x0202) := by decide

theorem test_ldaAbs_lt3 :
    (after (stored 0x1234 [0x7F] (coded [0xAD, 0x34, 0x12] { cpu 0x0200 with flags := flagged [.v, .c] }))).map
      (fun t => (t.a, t.pc)) = some (0x7F, 0x0203) := by decide

theorem test_ldaAbs_lt4 :
    (after (coded [0xAD, 0xFF, 0xFF] (cpu 0x0200))).map
      (fun t => (t.a, t.flags, t.pc)) = some (0xFF, flagged [.n], 0x0203) := by decide

theorem test_ldxImm_lt5 :
    (after (coded [0xA2, 0xFF] (cpu 0x0200))).map
      (fun t => (t.x, t.flags, t.pc)) = some (0xFF, flagged [.n], 0x0202) := by decide

theorem test_ldxAbs_lt6 :
    (after (stored 0x0010 [0x00] (coded [0xAE, 0x10, 0x00] { cpu 0x0200 with x := 0x01 }))).map
      (fun t => (t.x, t.flags, t.pc)) = some (0x00, flagged [.z], 0x0203) := by decide

theorem test_ldyImm_lt7 :
    (after (coded [0xA0, 0x01] { cpu 0x0200 with flags := flagged [.n, .z] })).map
      (fun t => (t.y, t.flags, t.pc)) = some (0x01, flagged [], 0x0202) := by decide

theorem test_ldyAbs_lt8 :
    (after (stored 0x0300 [0x90] (coded [0xAC, 0x00, 0x03] (cpu 0x0200)))).map
      (fun t => (t.y, t.flags, t.pc)) = some (0x90, flagged [.n], 0x0203) := by decide

theorem test_tax_lt9 :
    (after (coded [0xAA] { cpu 0x0200 with x := 0x44 })).map
      (fun t => (t.x, t.flags, t.pc)) = some (0x00, flagged [.z], 0x0201) := by decide

theorem test_txa_lt10 :
    (after (coded [0x8A] { cpu 0x0200 with x := 0x90 })).map
      (fun t => (t.a, t.flags, t.pc)) = some (0x90, flagged [.n], 0x0201) := by decide

theorem test_tay_lt11 :
    (after (coded [0xA8] { cpu 0x0200 with a := 0x01, flags := flagged [.z] })).map
      (fun t => (t.y, t.flags, t.pc)) = some (0x01, flagged [], 0x0201) := by decide

theorem test_tya_lt12 :
    (after (coded [0x98] { cpu 0x0200 with a := 0x01 })).map
      (fun t => (t.a, t.flags, t.pc)) = some (0x00, flagged [.z], 0x0201) := by decide

theorem test_tsx_lt13 :
    (after (coded [0xBA] { cpu 0x0200 with x := 0x07 })).map
      (fun t => (t.x, t.flags, t.pc)) = some (0x00, flagged [.z], 0x0201) := by decide

theorem test_txs_lt14 :
    (after (coded [0x9A] { cpu 0x0200 with x := 0x80 })).map
      (fun t => (t.s, t.flags, t.pc)) = some (0x80, flagged [.n], 0x0201) := by decide

theorem test_txs_lt15 :
    (after (coded [0x9A] { cpu 0x0200 with s := 0xFF, flags := flagged [.n] })).map
      (fun t => (t.s, t.flags, t.pc)) = some (0x00, flagged [.z], 0x0201) := by decide

theorem test_sta_lt16 :
    (after (coded [0x8D, 0x00, 0x04] { cpu 0x0200 with a := 0x42, flags := flagged [.z, .c] })).map
      (fun t => (t.flags, t.mem.read 0x0400, t.pc)) = some (flagged [.z, .c], 0x42, 0x0203) := by decide

theorem test_stx_lt17 :
    (after (coded [0x8E, 0xFF, 0xFF] (cpu 0x0200))).map
      (fun t => (t.flags, t.mem.read 0xFFFF, t.pc)) = some (flagged [], 0x00, 0x0203) := by decide

theorem test_sty_lt18 :
    (after (coded [0x8C, 0x00, 0x00] { cpu 0x0200 with y := 0x80 })).map
      (fun t => (t.flags, t.mem.read 0x0000, t.pc)) = some (flagged [], 0x80, 0x0203) := by decide

theorem test_sta_lt19 :
    (after (coded [0x8D, 0x01, 0x02] (cpu 0x0200))).map
      (fun t => (t.flags, t.mem.read 0x0201, t.pc)) = some (flagged [], 0x00, 0x0203) := by decide

theorem test_adcImm_ar3 :
    (after (coded [0x69, 0x01] { cpu 0x0200 with a := 0xFF, flags := flagged [.c] })).map
      (fun t => (t.a, t.flags, t.pc)) = some (0x01, flagged [.v, .c], 0x0202) := by decide

theorem test_adcAbs_ar7 :
    (after (stored 0x0010 [0x05] (coded [0x6D, 0x10, 0x00] { cpu 0x0200 with a := 0x03, flags := flagged [.c] }))).map
      (fun t => (t.a, t.flags, t.pc)) = some (0x09, flagged [.v], 0x0203) := by decide

theorem test_adcImm_ar11 :
    (after (coded [0x69, 0x80] { cpu 0x0200 with a := 0x30, flags := flagged [.d] })).map
      (fun t => (t.a, t.flags, t.pc)) = some (0x80, flagged [.n, .d], 0x0202) := by decide

theorem test_sbcImm_ar16 :
    (after (coded [0xE9, 0xFF] (cpu 0x0200))).map
      (fun t => (t.flags, t.pc)) = some (flagged [.z, .c], 0x0202) := by decide

theorem test_sbcImm_ar17 :
    (after (coded [0xE9, 0x10] { cpu 0x0200 with a := 0x20, flags := flagged [.d, .c] })).map
      (fun t => (t.a, t.flags, t.pc)) = some (0x16, flagged [.v, .d], 0x0202) := by decide

theorem test_sbcAbs_ar18 :
    (after (stored 0x0400 [0x03] (coded [0xED, 0x00, 0x04] { cpu 0x0200 with a := 0x05, flags := flagged [.c] }))).map
      (fun t => (t.a, t.flags, t.pc)) = some (0x02, flagged [.v], 0x0203) := by decide

theorem test_andImm_ls1 :
    (after (coded [0x29, 0x0F] { cpu 0x0200 with a := 0xF0 })).map
      (fun t => (t.a, t.flags, t.pc)) = some (0x00, flagged [.z], 0x0202) := by decide

theorem test_andAbs_ls2 :
    (after (stored 0x0010 [0x81] (coded [0x2D, 0x10, 0x00] { cpu 0x0200 with a := 0xC3, flags := flagged [.z] }))).map
      (fun t => (t.a, t.flags, t.pc)) = some (0x81, flagged [.n], 0x0203) := by decide

theorem test_oraImm_ls3 :
    (after (coded [0x09, 0x80] { cpu 0x0200 with a := 0x01 })).map
      (fun t => (t.a, t.flags, t.pc)) = some (0x81, flagged [.n], 0x0202) := by decide

theorem test_oraAbs_ls4 :
    (after (stored 0x0010 [0x00] (coded [0x0D, 0x10, 0x00] { cpu 0x0200 with flags := flagged [.n] }))).map
      (fun t => (t.flags, t.pc)) = some (flagged [.z], 0x0203) := by decide

theorem test_eorImm_ls5 :
    (after (coded [0x49, 0xFF] { cpu 0x0200 with a := 0xFF })).map
      (fun t => (t.a, t.flags, t.pc)) = some (0x00, flagged [.z], 0x0202) := by decide

theorem test_eorAbs_ls6 :
    (after (stored 0x0010 [0xF0] (coded [0x4D, 0x10, 0x00] { cpu 0x0200 with a := 0x0F }))).map
      (fun t => (t.a, t.flags, t.pc)) = some (0xFF, flagged [.n], 0x0203) := by decide

theorem test_aslA_ls7 :
    (after (coded [0x0A] { cpu 0x0200 with a := 0x80 })).map
      (fun t => (t.a, t.flags, t.pc)) = some (0x00, flagged [.z, .c], 0x0201) := by decide

theorem test_aslA_ls8 :
    (after (coded [0x0A] { cpu 0x0200 with a := 0x41, flags := flagged [.c] })).map
      (fun t => (t.a, t.flags, t.pc)) = some (0x82, flagged [.n], 0x0201) := by decide

theorem test_aslAbs_ls9 :
    (after (stored 0x0010 [0xFF] (coded [0x0E, 0x10, 0x00] { cpu 0x0200 with a := 0x01 }))).map
      (fun t => (t.flags, t.mem.read 0x0010, t.pc)) = some (flagged [.n, .c], 0xFE, 0x0203) := by decide

theorem test_lsrA_ls10 :
    (after (coded [0x4A] { cpu 0x0200 with a := 0x01, flags := flagged [.n] })).map
      (fun t => (t.a, t.flags, t.pc)) = some (0x00, flagged [.z, .c], 0x0201) := by decide

theorem test_lsrAbs_ls11 :
    (after (stored 0x0010 [0x80] (coded [0x4E, 0x10, 0x00] (cpu 0x0200)))).map
      (fun t => (t.flags, t.mem.read 0x0010, t.pc)) = some (flagged [], 0x40, 0x0203) := by decide

theorem test_rolA_ls12 :
    (after (coded [0x2A] { cpu 0x0200 with a := 0x80, flags := flagged [.c] })).map
      (fun t => (t.a, t.pc)) = some (0x01, 0x0201) := by decide

theorem test_rolA_ls13 :
    (after (coded [0x2A] (cpu 0x0200))).map
      (fun t => (t.flags, t.pc)) = some (flagged [.z], 0x0201) := by decide

theorem test_rolAbs_ls14 :
    (after (stored 0x0010 [0x40] (coded [0x2E, 0x10, 0x00] { cpu 0x0200 with flags := flagged [.c] }))).map
      (fun t => (t.flags, t.mem.read 0x0010, t.pc)) = some (flagged [.n], 0x81, 0x0203) := by decide

theorem test_rorA_ls15 :
    (after (coded [0x6A] { cpu 0x0200 with a := 0x01 })).map
      (fun t => (t.a, t.flags, t.pc)) = some (0x00, flagged [.z, .c], 0x0201) := by decide

theorem test_rorA_ls16 :
    (after (coded [0x6A] { cpu 0x0200 with flags := flagged [.c] })).map
      (fun t => (t.a, t.flags, t.pc)) = some (0x80, flagged [.n], 0x0201) := by decide

theorem test_rorAbs_ls17 :
    (after (stored 0x0010 [0xE0] (coded [0x6E, 0x10, 0x00] (cpu 0x0200)))).map
      (fun t => (t.flags, t.mem.read 0x0010, t.pc)) = some (flagged [], 0x70, 0x0203) := by decide

theorem test_inx_ic1 :
    (after (coded [0xE8] { cpu 0x0200 with x := 0xFF })).map
      (fun t => (t.x, t.flags, t.pc)) = some (0x00, flagged [.z], 0x0201) := by decide

theorem test_inx_ic2 :
    (after (coded [0xE8] { cpu 0x0200 with x := 0x7F })).map
      (fun t => (t.x, t.flags, t.pc)) = some (0x80, flagged [.n], 0x0201) := by decide

theorem test_iny_ic3 :
    (after (coded [0xC8] { cpu 0x0200 with flags := flagged [.z] })).map
      (fun t => (t.y, t.flags, t.pc)) = some (0x01, flagged [], 0x0201) := by decide

theorem test_dex_ic4 :
    (after (coded [0xCA] (cpu 0x0200))).map
      (fun t => (t.x, t.flags, t.pc)) = some (0xFF, flagged [.n], 0x0201) := by decide

theorem test_dex_ic5 :
    (after (coded [0xCA] { cpu 0x0200 with x := 0x01, flags := flagged [.c] })).map
      (fun t => (t.x, t.flags, t.pc)) = some (0x00, flagged [.z, .c], 0x0201) := by decide

theorem test_dey_ic6 :
    (after (coded [0x88] { cpu 0x0200 with y := 0x80, flags := flagged [.n] })).map
      (fun t => (t.y, t.flags, t.pc)) = some (0x7F, flagged [], 0x0201) := by decide

theorem test_cmpImm_ic8 :
    (after (coded [0xC9, 0x20] { cpu 0x0200 with a := 0x10 })).map
      (fun t => (t.flags, t.pc)) = some (flagged [.n, .c], 0x0202) := by decide

theorem test_cmpImm_ic10 :
    (after (coded [0xC9, 0x80] (cpu 0x0200))).map
      (fun t => (t.flags, t.pc)) = some (flagged [.n, .c], 0x0202) := by decide

theorem test_cmpAbs_ic12 :
    (after (stored 0x0010 [0x10] (coded [0xCD, 0x10, 0x00] { cpu 0x0200 with a := 0x10, flags := flagged [.d] }))).map
      (fun t => (t.flags, t.pc)) = some (flagged [.d, .z], 0x0203) := by decide

theorem test_cpxImm_ic13 :
    (after (coded [0xE0, 0x05] { cpu 0x0200 with x := 0x03 })).map
      (fun t => (t.flags, t.pc)) = some (flagged [.n, .c], 0x0202) := by decide

theorem test_cpxAbs_ic14 :
    (after (stored 0x0010 [0x7F] (coded [0xEC, 0x10, 0x00] { cpu 0x0200 with x := 0x80, flags := flagged [.v] }))).map
      (fun t => (t.flags, t.pc)) = some (flagged [.v], 0x0203) := by decide

theorem test_cpyImm_ic15 :
    (after (coded [0xC0, 0xF0] { cpu 0x0200 with y := 0xF0, flags := flagged [.n] })).map
      (fun t => (t.flags, t.pc)) = some (flagged [.z], 0x0202) := by decide

theorem test_cpyAbs_ic16 :
    (after (stored 0x0010 [0x01] (coded [0xCC, 0x10, 0x00] (cpu 0x0200)))).map
      (fun t => (t.flags, t.pc)) = some (flagged [.n, .c], 0x0203) := by decide

theorem test_bit_ic17 :
    (after (stored 0x0010 [0xC0] (coded [0x2C, 0x10, 0x00] { cpu 0x0200 with a := 0x0F, flags := flagged [.c] }))).map
      (fun t => (t.flags, t.pc)) = some (flagged [.n, .v, .z, .c], 0x0203) := by decide

theorem test_bit_ic18 :
    (after (stored 0x0010 [0x01] (coded [0x2C, 0x10, 0x00] { cpu 0x0200 with a := 0xFF, flags := flagged [.n, .v, .z] }))).map
      (fun t => (t.flags, t.pc)) = some (flagged [], 0x0203) := by decide

theorem test_bpl_br1 :
    (after (coded [0x10, 0x10] (cpu 0x0200))).map
      (fun t => (t.flags, t.pc)) = some (flagged [], 0x0212) := by decide

theorem test_bpl_br2 :
    (after (coded [0x10, 0x10] { cpu 0x0200 with flags := flagged [.n] })).map
      (fun t => (t.flags, t.pc)) = some (flagged [.n], 0x0202) := by decide

theorem test_bmi_br3 :
    (after (coded [0x30, 0x10] { cpu 0x0200 with flags := flagged [.n] })).map
      (fun t => (t.flags, t.pc)) = some (flagged [.n], 0x0212) := by decide

theorem test_bmi_br4 :
    (after (coded [0x30, 0x10] (cpu 0x0200))).map
      (fun t => (t.flags, t.pc)) = some (flagged [], 0x0202) := by decide

theorem test_bvc_br5 :
    (after (coded [0x50, 0x80] (cpu 0x0300))).map
      (fun t => (t.flags, t.pc)) = some (flagged [], 0x0282) := by decide

theorem test_bvs_br6 :
    (after (coded [0x70, 0x80] { cpu 0x0300 with flags := flagged [.v] })).map
      (fun t => (t.flags, t.pc)) = some (flagged [.v], 0x0282) := by decide

theorem test_bvs_br7 :
    (after (coded [0x70, 0x80] (cpu 0x0300))).map
      (fun t => (t.flags, t.pc)) = some (flagged [], 0x0302) := by decide

theorem test_bcc_br8 :
    (after (coded [0x90, 0x7F] (cpu 0x0300))).map
      (fun t => (t.flags, t.pc)) = some (flagged [], 0x0381) := by decide

theorem test_bcs_br9 :
    (after (coded [0xB0, 0x7F] { cpu 0x0300 with flags := flagged [.c] })).map
      (fun t => (t.flags, t.pc)) = some (flagged [.c], 0x0381) := by decide

theorem test_bcs_br10 :
    (after (coded [0xB0, 0x7F] (cpu 0x0300))).map
      (fun t => (t.flags, t.pc)) = some (flagged [], 0x0302) := by decide

theorem test_bne_br11 :
    (after (coded [0xD0, 0xFA] (cpu 0x0208))).map
      (fun t => (t.flags, t.pc)) = some (flagged [], 0x0204) := by decide

theorem test_beq_br13 :
    (after (coded [0xF0, 0xF9] { cpu 0x0205 with flags := flagged [.z] })).map
      (fun t => (t.flags, t.pc)) = some (flagged [.z], 0x0200) := by decide

theorem test_beq_br14 :
    (after (coded [0xF0, 0xFE] { cpu 0x0205 with flags := flagged [.z] })).map
      (fun t => (t.flags, t.pc)) = some (flagged [.z], 0x0205) := by decide

theorem test_bne_br16 :
    (after (coded [0xD0, 0x7F] (cpu 0xFFF0))).map
      (fun t => (t.flags, t.pc)) = some (flagged [], 0xFFFE) := by decide

theorem test_jmp_jc1 :
    (after (coded [0x4C, 0x34, 0x12] (cpu 0x0200))).map
      (fun t => (t.flags, t.pc)) = some (flagged [], 0x1234) := by decide

theorem test_jmp_jc2 :
    (after (coded [0x4C, 0xFE, 0xFF] (cpu 0x0200))).map
      (fun t => (t.flags, t.pc)) = some (flagged [], 0xFFFE) := by decide

theorem test_jsr_jc3 :
    (after (coded [0x20, 0x00, 0x03] { cpu 0x0010 with s := 0xFF })).map
      (fun t => (t.s, t.mem.read 0x01FF, t.pc)) = some (0xFE, 0x10, 0x0300) := by decide

theorem test_jsr_jc4 :
    (after (coded [0x20, 0x00, 0x05] (cpu 0x0234))).map
      (fun t => (t.s, t.mem.read 0x0100, t.pc)) = some (0xFF, 0x34, 0x0500) := by decide

theorem test_rts_jc6 :
    (after (stored 0x0100 [0x34] (coded [0x60] { cpu 0x0500 with s := 0xFF }))).map
      (fun t => (t.s, t.pc)) = some (0x00, 0x0037) := by decide

theorem test_rts_jc7 :
    (after (coded [0x60] (cpu 0x0300))).map
      (fun t => (t.s, t.pc)) = some (0x01, 0x0102) := by decide

theorem test_clc_fs1 :
    (after (coded [0x18] { cpu 0x0200 with flags := flagged [.n, .c] })).map
      (fun t => (t.flags, t.pc)) = some (flagged [.n], 0x0201) := by decide

theorem test_sec_fs2 :
    (after (coded [0x38] (cpu 0x0200))).map
      (fun t => (t.flags, t.pc)) = some (flagged [.c], 0x0201) := by decide

theorem test_cli_fs3 :
    (after (coded [0x58] { cpu 0x0200 with flags := flagged [.i] })).map
      (fun t => (t.flags, t.pc)) = some (flagged [], 0x0201) := by decide

theorem test_sei_fs4 :
    (after (coded [0x78] (cpu 0x0200))).map
      (fun t => (t.flags, t.pc)) = some (flagged [.i], 0x0201) := by decide

theorem test_clv_fs5 :
    (after (coded [0xB8] { cpu 0x0200 with flags := flagged [.v, .z] })).map
      (fun t => (t.flags, t.pc)) = some (flagged [.z], 0x0201) := by decide

theorem test_cld_fs6 :
    (after (coded [0xD8] { cpu 0x0200 with flags := flagged [.d] })).map
      (fun t => (t.flags, t.pc)) = some (flagged [], 0x0201) := by decide

theorem test_sed_fs7 :
    (after (coded [0xF8] (cpu 0x0200))).map
      (fun t => (t.flags, t.pc)) = some (flagged [.d], 0x0201) := by decide

theorem test_pha_fs8 :
    (after (coded [0x48] { cpu 0x0200 with a := 0x41 })).map
      (fun t => (t.s, t.mem.read 0x0100, t.pc)) = some (0xFF, 0x41, 0x0201) := by decide

theorem test_pla_fs10 :
    (after (stored 0x01FF [0x00] (coded [0x68] { cpu 0x0200 with a := 0x55, s := 0xFE, flags := flagged [.n] }))).map
      (fun t => (t.a, t.s, t.pc)) = some (0x00, 0xFF, 0x0201) := by decide

theorem test_pla_fs11 :
    (after (stored 0x01FF [0x00] (coded [0x68] { cpu 0x0200 with a := 0x55, s := 0xFE, flags := flagged [.n], params := nzPlaParams }))).map
      (fun t => (t.a, t.s, t.flags, t.pc)) = some (0x00, 0xFF, flagged [.z], 0x0201) := by decide

theorem test_php_fs13 :
    (after (stored 0x01FF [0x00] (coded [0x08] { cpu 0x0200 with s := 0xFF, flags := flagged [.n, .v, .bh, .bl, .d, .i, .z, .c] }))).map
      (fun t => (t.s, t.mem.read 0x01FF, t.pc)) = some (0xFE, 0xFF, 0x0201) := by decide

theorem test_php_fs14 :
    (after (coded [0x08] { cpu 0x0200 with flags := flagged [.i] })).map
      (fun t => (t.s, t.mem.read 0x0100, t.pc)) = some (0xFF, 0x04, 0x0201) := by decide

theorem test_plp_fs15 :
    (after (stored 0x0100 [0xC3] (coded [0x28] { cpu 0x0200 with s := 0xFF }))).map
      (fun t => (t.s, t.flags, t.pc)) = some (0x00, flagged [.n, .v, .z, .c], 0x0201) := by decide

theorem test_plp_fs16 :
    (after (stored 0x01FF [0x30] (coded [0x28] { cpu 0x0200 with s := 0xFE, flags := flagged [.n, .z, .c] }))).map
      (fun t => (t.s, t.flags, t.pc)) = some (0xFF, flagged [.bh, .bl], 0x0201) := by decide

theorem test_nop_fs17 :
    (after (coded [0xEA] { cpu 0x0200 with a := 0x12, flags := flagged [.z, .c] })).map
      (fun t => (t.flags, t.pc)) = some (flagged [.z, .c], 0x0201) := by decide

-- The frame (95_test_vectors.md V-SC1 to V-SC13)

theorem test_sc1_reset_vector : (after (stored 0x0200 [0xEA] (stored 0xFFFE [0x00, 0x02] State.reset))).map
    (fun t => (t.pc, t.flags)) = some (0x0201, flagged []) := by decide

theorem test_sc2_unwritten_vector : after State.reset = some (cpu 0xFFFF) := by decide

theorem test_sc3_unrecognised : after (cpu 0x0300) = some (cpu 0x0300) := by decide

theorem test_sc4_unrecognised_advance :
    (after { cpu 0x0300 with params := { defaultParams with unrecognisedOpcodeAdvance := 1 } }).map (·.pc) =
      some 0x0301 := by decide

theorem test_sc5_opcode_zero : (after (coded [0x00] { cpu 0x0300 with a := 0x12, flags := flagged [.c] })).map
    (fun t => (t.a, t.flags, t.pc)) = some (0x12, flagged [.c], 0x0300) := by decide

theorem test_sc6_nop_at_top : (after (coded [0xEA] (cpu 0xFFFF))).map (·.pc) = some 0xFFFE := by decide

theorem test_sc7_operand_past_the_end : (after (coded [0xA9] { cpu 0xFFFF with a := 0x33 })).map
    (fun t => (t.a, t.flags, t.pc)) = some (0x00, flagged [.z], 0xFFFE) := by decide

theorem test_sc8_vector_is_sentinel : (after (stored 0xFFFE [0xFE, 0xFF] State.reset)).map (·.pc) = some 0xFFFE := by
  decide

theorem test_sc9_branch_below_zero : faultOf (coded [0xD0, 0xF8] (cpu 0x0000)) = some .pcOutOfRange := by decide

theorem test_sc10_sentinel_policy :
    (after (coded [0xD0, 0xF8] { cpu 0x0000 with params := sentinelParams })).map (·.pc) = some 0xFFFE := by decide

theorem test_sc11_wrap_policy :
    (after (coded [0xD0, 0xF8] { cpu 0x0000 with params := wrapParams })).map (·.pc) = some 0xFFFA := by decide

theorem test_sc13_operand_is_vector : (after (coded [0x4C, 0x00, 0x02] (cpu 0xFFFD))).map (·.pc) = some 0x0200 := by
  decide

/-- A word placed for the host runs as the first instruction after reset (log entry 4). -/
theorem test_withFetchWord : (after (State.reset.withFetchWord 24 0x03004E)).map (fun t => (t.pc, t.mem.read 0x0300)) =
    some (0x0203, 0x7F) := by decide

-- Lines of the assembler (95_test_vectors.md V-AS1 to V-AS33; 30_encoding.md R73 to R101)

/-- The outcome of an assembly from reset: the reports and the first bytes of the image from an address on. -/
def image (source : Text) (a k : Nat) : Option (List Report × List Byte) :=
  match assemble source State.reset with
  | .completed t rs => some (rs, (List.range k).map fun i => t.mem.read (a + i))
  | .refused _ _ => none

theorem test_assemble_as2 : image "lda #$05".toList 0x0000 2 =
    some ([], [0xFF, 0xFF]) := by decide +kernel

theorem test_assemble_as3 : image "LDA #5".toList 0x0000 2 =
    some ([⟨.syntaxError .badImmediate, 1⟩], [0xFF, 0xFF]) := by decide +kernel

theorem test_assemble_as4 : image "LDA $123".toList 0x0000 3 =
    some ([⟨.syntaxError .badAbsolute, 1⟩], [0xFF, 0xFF, 0xFF]) := by decide +kernel

theorem test_assemble_as5 : image "LDA $1G".toList 0x0000 3 =
    some ([⟨.syntaxError .badHex, 1⟩], [0xFF, 0xFF, 0xFF]) := by decide +kernel

theorem test_assemble_as6 : image "LDA $10".toList 0x0000 2 =
    some ([], [0xFF, 0xFF]) := by decide +kernel

theorem test_assemble_as7 : image "STA #$01".toList 0x0000 2 =
    some ([], [0xFF, 0xFF]) := by decide +kernel

theorem test_assemble_as11 : image "BNE $FA".toList 0x0000 2 =
    some ([], [0xD0, 0xFA]) := by decide +kernel

theorem test_assemble_as12 : image "BNE 200".toList 0x0000 2 =
    some ([], [0xD0, 0xC8]) := by decide +kernel

theorem test_assemble_as13 : image "LDA data".toList 0x0000 3 =
    some ([⟨.syntaxError .labelNotAllowed, 1⟩], [0xFF, 0xFF, 0xFF]) := by decide +kernel

theorem test_assemble_as15 : image "FOO #5".toList 0x0000 2 =
    some ([⟨.syntaxError .badImmediate, 1⟩], [0xFF, 0xFF]) := by decide +kernel

theorem test_assemble_as16 : image ".BYTE $01, $2, $FF".toList 0x0000 3 =
    some ([], [0x01, 0x02, 0xFF]) := by decide +kernel

theorem test_assemble_as17 : image ".BYTE $100".toList 0x0000 2 =
    some ([⟨.syntaxError .badDirectiveOperand, 1⟩], [0xFF, 0xFF]) := by decide +kernel

theorem test_assemble_as18 : image ".WORD $1".toList 0x0000 2 =
    some ([], [0x01, 0x00]) := by decide +kernel

theorem test_assemble_as19 : image ".ORG $10000\nNOP".toList 0x0000 1 =
    some ([⟨.syntaxError .badDirectiveOperand, 1⟩], [0xEA]) := by decide +kernel

theorem test_assemble_as20 : image ".FOO $12\nNOP".toList 0x0000 2 =
    some ([], [0xEA, 0xFF]) := by decide +kernel

theorem test_assemble_as21 : image "a:\nNOP\na:\nJMP a".toList 0x0000 4 =
    some ([], [0xEA, 0x4C, 0x00, 0x00]) := by decide +kernel

theorem test_assemble_as26 : image "  NOP   ; idle\n; only a comment".toList 0x0000 2 =
    some ([], [0xEA, 0xFF]) := by decide +kernel

theorem test_assemble_as27 : image ".ORG $0010\nback:\nNOP\nBNE back".toList 0x0010 3 =
    some ([], [0xEA, 0xD0, 0xFD]) := by decide +kernel

theorem test_assemble_as28 : image "JSR sub\nsub:\nRTS".toList 0x0000 4 =
    some ([], [0x20, 0x03, 0x00, 0x60]) := by decide +kernel

theorem test_assemble_as29 : image ".ORG $0000\n.ORG $0300\nJMP $ABCD".toList 0x0300 3 =
    some ([], [0x4C, 0xCD, 0xAB]) := by decide +kernel

theorem test_assemble_as30 : image ".ORG $00FF\n.WORD $BEEF, $12".toList 0x00FF 4 =
    some ([], [0xEF, 0xBE, 0x12, 0x00]) := by decide +kernel

/-- V-AS31: an empty label name, and JMP without an operand. -/
theorem test_assemble_as31 : image ":\nJMP ".toList 0x0000 3 = some ([], [0xFF, 0xFF, 0xFF]) := by decide +kernel

theorem test_assemble_as24 : assemble ".ORG $FFFF\nLDA #$01".toList State.reset =
    .refused .invalidAddress [⟨.invalidAddress, 2⟩] := by decide +kernel

theorem test_assemble_as25 : assemble ".ORG $FFFF\nNOP\nend:".toList State.reset =
    .refused .invalidAddress [⟨.invalidAddress, 3⟩] := by decide +kernel

/-- R90: the pair of `INX A` is absent, and R97: the line writes nothing and reports nothing. -/
theorem test_assemble_inx_a : image "INX A\nASL A\nINX".toList 0x0000 3 = some ([], [0x0A, 0xE8, 0xFF]) := by
  decide +kernel

/-- 60_exceptions.md R271: the SyntaxError of line 1 is reported beside the InvalidAddress of line 3. -/
theorem test_assemble_refused_reports : assemble "LDA #5\n.ORG $FFFF\nLDA #$01".toList State.reset =
    .refused .invalidAddress [⟨.syntaxError .badImmediate, 1⟩, ⟨.invalidAddress, 3⟩] := by decide +kernel

/-- 00_scope.md R5: the text of an excluded form produces no bytes. -/
theorem test_assemble_excluded : image 
    "JMP ($1234)\nJMP ($1234,X)\nJMP (v)\nJMP [$1234]\nJSR ($1234)\nJSR (f)\nJSR (f,X)\nNOP".toList 0x0000 2 =
    some ([], [0xEA, 0xFF]) := by decide +kernel

/-- 30_encoding.md R79, R83, R87: such text names a label where no form is excluded. -/
theorem test_assemble_label_names : image "t,X:\n(v):\nBNE t,X\nBNE (v)\nJSR [v]\nJMP t,X".toList 0x0000 10 =
    some ([], [0xD0, 0xFE, 0xD0, 0xFC, 0x20, 0x00, 0x00, 0x4C, 0x00, 0x00]) := by decide +kernel

/-- After a Refused assembly no step is admitted, and the host assembles again (70_reset_and_hazards.md R295). -/
theorem test_session_refused_then_assembled :
    (((Session.start.call (.assemble ".ORG $FFFF\nNOP\nend:".toList)).1.call .step).2 = .faulted .invalidAddress) ∧
    ((((Session.start.call (.assemble ".ORG $FFFF\nNOP\nend:".toList)).1.call .step).1.call
      (.assemble "NOP".toList)).1.snapshot.map fun n => n.mem.read 0) = some 0xEA := by decide +kernel

/-- V-SC9: the state is otherwise unchanged, and the host assembles again. -/
theorem test_session_branch_fault :
    (Session.call ⟨coded [0xD0, 0xF8] (cpu 0), none⟩ .step).1 = ⟨coded [0xD0, 0xF8] (cpu 0), some .pcOutOfRange⟩ ∧
    ((Session.call ⟨coded [0xD0, 0xF8] (cpu 0), some .pcOutOfRange⟩ (.assemble "NOP".toList)).2 = .completed []) := by
  decide +kernel

-- Witnesses: for every obligation with hypotheses, values that meet them all, at the boundaries of each clause. The
-- number is the obligation's in OBLIGATIONS.json.

/-- The memory of two writes, in either order. -/
def twoCells (a b : Nat) (v w : Byte) : Memory := ((Memory.mk []).write a v).write b w

theorem witness_o4_form : (twoCells 0xFFFF 3 0x12 0x34).wf ∧ 0xFFFF < 65536 ∧ (Memory.mk []).wf ∧ 0 < 65536 := by decide

theorem witness_o4_equal : (twoCells 1 3 2 4).wf ∧ (twoCells 3 1 4 2).wf ∧
    ∀ a, (twoCells 1 3 2 4).read a = (twoCells 3 1 4 2).read a :=
  ⟨by decide, by decide, fun _ => congrArg (Memory.read · _) (by decide : twoCells 1 3 2 4 = twoCells 3 1 4 2)⟩

theorem witness_o11 : OpcodeMap.wf defaultOpcodeMap = true ∧ OpcodeMap.wf otherMap = true :=
  ⟨test_wf_default_map, test_wf_other_map⟩

theorem witness_o12 : OpcodeMap.wf defaultOpcodeMap = true ∧ decode defaultOpcodeMap 0xAD 0x34 0x12 = .ok (.ldaAbs 0x1234) ∧
    OpcodeMap.wf otherMap = true ∧ decode otherMap 0x15 0 0 = .ok .nop :=
  ⟨test_wf_default_map, by decide, test_wf_other_map, by decide⟩

theorem witness_o13_at_pc : (coded [0xEA] (cpu 0xFFFF)).pc ≠ 0xFFFE ∧
    instrAt (coded [0xEA] (cpu 0xFFFF)) 0xFFFF = .ok .nop := by decide

theorem witness_o13_at_vector : (stored 0x0200 [0xEA] (stored 0xFFFE [0x00, 0x02] State.reset)).pc = 0xFFFE ∧
    instrAt (stored 0x0200 [0xEA] (stored 0xFFFE [0x00, 0x02] State.reset))
      (vectorWord (stored 0x0200 [0xEA] (stored 0xFFFE [0x00, 0x02] State.reset))) = .ok .nop := by decide

theorem witness_o14_at_pc : (cpu 0x0300).pc ≠ 0xFFFE ∧ instrAt (cpu 0x0300) 0x0300 = .error (.unrecognised 0xFF) ∧
    (cpu 0x0300).params.unrecognisedOpcodeAdvance = 0 := by decide

theorem witness_o14_at_vector : State.reset.pc = 0xFFFE ∧
    instrAt State.reset (vectorWord State.reset) = .error (.unrecognised 0xFF) := by decide

theorem witness_o15 : (65536 : Int) ≤ 65536 ∧ (0 : Int) ≤ 0 ∧ (0 : Int) < 65536 ∧ (0 : Int) ≤ 65535 ∧ (65535 : Int) < 65536 ∧
    (-1 : Int) < 0 ∧ (cpu 0).params.pcNegativePolicy = .fault ∧
    (State.resetWith sentinelParams).params.pcNegativePolicy = .sentinel ∧
    (State.resetWith wrapParams).params.pcNegativePolicy = .wrap := by decide

theorem witness_o17_fault : faultOf (coded [0xD0, 0xFD] (cpu 0x0000)) = some .pcOutOfRange ∧
    (cpu 0).params.pcNegativePolicy = .fault ∧ instrAt (coded [0xD0, 0xFD] (cpu 0)) 0 = .ok (.bne 0xFD) ∧
    (0 : Int) + 2 + (0xFD : Byte).toInt < 0 := by decide

theorem witness_o17_taken : takenBranch (cpu 0).flags 0xFD (.bne 0xFD) :=
  ⟨branchTable[6], by simp [branchTable], rfl, rfl⟩

theorem witness_o18 : State.reset.wf ∧ step State.reset = .next (cpu 0xFFFF) :=
  ⟨⟨by decide, test_wf_default_map, rfl⟩, step_of_after test_sc2_unwritten_vector⟩

theorem witness_o19 : ({ defaultParams with opcodeMap := otherMap } : Params).wf = true := test_wf_other_map

theorem witness_o20 : step State.reset = .next (cpu 0xFFFF) := step_of_after test_sc2_unwritten_vector

/-- LDA writes N and Z alone of the flags; under the default, PLA writes none. -/
theorem witness_o21 : (∃ t, exec (.ldaImm 0x80) (cpu 0) = .next t) ∧ (∃ t, exec .pla (cpu 0) = .next t) ∧
    (∀ k ∈ [FlagName.v, .bh, .bl, .d, .i, .c], (Instr.ldaImm 0x80).mnemonic ∉ flagWriters false k) ∧
    (∀ k ∈ [FlagName.n, .v, .bh, .bl, .d, .i, .z, .c], Instr.pla.mnemonic ∉ flagWriters false k) :=
  ⟨⟨_, rfl⟩, ⟨_, rfl⟩, by decide, by decide⟩

theorem witness_o22 : ∀ k ∈ [FlagName.n, .v, .bh, .bl, .i, .z], (Instr.adcImm 1).mnemonic ∉ flagReaders k := by decide

/-- The second clause: CLV, BIT and ADC write V without reading it. -/
theorem witness_o22_writers : ∀ i ∈ [Instr.clv, .bit 0xFFFF, .adcImm 1], i.mnemonic ∉ flagReaders .v ∧
    i.mnemonic ∈ flagWriters false .v := by decide

theorem witness_o23 : (∃ t, exec .inx (cpu 0) = .next t) ∧ writesReg .a .inx = false ∧ writesReg .y .inx = false ∧
    writesReg .s .inx = false ∧ (∃ t, exec .iny (cpu 0) = .next t) ∧ writesReg .x .iny = false :=
  ⟨⟨_, rfl⟩, rfl, rfl, rfl, ⟨_, rfl⟩, rfl⟩

theorem witness_o24_stores : (∃ t, exec (.sta 0xFFFF) (cpu 0) = .next t) ∧
    storeAddr (cpu 0) (.sta 0xFFFF) = some 0xFFFF ∧ (0 : Word) ≠ 0xFFFF ∧
    (∃ t, exec .pha (cpu 0) = .next t) ∧ storeAddr (cpu 0) .pha = some 0x0100 ∧ (0x01FF : Word) ≠ 0x0100 :=
  ⟨⟨_, rfl⟩, rfl, by decide, ⟨_, rfl⟩, by decide, by decide⟩

theorem witness_o24_no_store : (∃ t, exec (.ldaAbs 0xFFFF) (cpu 0) = .next t) ∧
    storeAddr (cpu 0) (.ldaAbs 0xFFFF) = none :=
  ⟨⟨_, rfl⟩, rfl⟩

/-- The shifts' results named in the statement: A = 0x81 with C set, the cell 0x0010 holding 0x81. -/
theorem witness_o30 : ∃ s : State, s.a = 0x81 ∧ s.flags.c = true ∧ s.mem.read (0x0010 : Word).toNat = 0x81 ∧
    (0x02 : Byte) = BitVec.ofNat 8 (s.a.toNat * 2) ∧
    (0x02 : Byte) = BitVec.ofNat 8 ((s.mem.read (0x0010 : Word).toNat).toNat * 2) ∧
    (0x40 : Byte) = BitVec.ofNat 8 (s.a.toNat / 2) ∧
    (0x40 : Byte) = BitVec.ofNat 8 ((s.mem.read (0x0010 : Word).toNat).toNat / 2) ∧
    (0x03 : Byte) = BitVec.ofNat 8 (s.a.toNat * 2 + s.flags.c.toNat) ∧
    (0x03 : Byte) = BitVec.ofNat 8 ((s.mem.read (0x0010 : Word).toNat).toNat * 2 + s.flags.c.toNat) ∧
    (0xC0 : Byte) = BitVec.ofNat 8 (s.a.toNat / 2 + 128 * s.flags.c.toNat) ∧
    (0xC0 : Byte) = BitVec.ofNat 8 ((s.mem.read (0x0010 : Word).toNat).toNat / 2 + 128 * s.flags.c.toNat) :=
  ⟨stored 0x0010 [0x81] { cpu 0x0200 with a := 0x81, flags := flagged [.c] }, by decide⟩

theorem witness_o31 : ∃ s : State, (0x00 : Byte) = BitVec.ofNat 8 (s.x.toNat + 1) ∧
    (0x01 : Byte) = BitVec.ofNat 8 (s.y.toNat + 1) ∧ (0xFE : Byte) = BitVec.ofInt 8 ((s.x.toNat : Int) - 1) ∧
    (0xFF : Byte) = BitVec.ofInt 8 ((s.y.toNat : Int) - 1) :=
  ⟨{ cpu 0x0200 with x := 0xFF, y := 0x00 }, by decide⟩

/-- Each branch of the table has flags that fail and flags that meet its condition. -/
theorem witness_o34_conditions : ∀ p ∈ branchTable,
    (p.2 (flagged []) = false ∧ p.2 (flagged [.n, .v, .z, .c]) = true) ∨
      (p.2 (flagged []) = true ∧ p.2 (flagged [.n, .v, .z, .c]) = false) := by
  simp only [branchTable, List.mem_cons, List.not_mem_nil, or_false]
  rintro p (rfl | rfl | rfl | rfl | rfl | rfl | rfl | rfl) <;> decide

theorem witness_o34_target : (0 : Int) ≤ ((cpu 0x0000).pc.toNat : Int) + 2 + (0xFE : Byte).toInt ∧
    (0 : Int) ≤ ((cpu 0xFFFF).pc.toNat : Int) + 2 + (0x7F : Byte).toInt := by decide

theorem witness_o35 : ((cpu 0x0000).pc.toNat : Int) + 2 + (0xFD : Byte).toInt < 0 ∧
    (cpu 0x0000).params.pcNegativePolicy = .fault ∧
    ({ cpu 0x0000 with params := sentinelParams } : State).params.pcNegativePolicy = .sentinel ∧
    ({ cpu 0x0000 with params := wrapParams } : State).params.pcNegativePolicy = .wrap := by decide

/-- After a JSR at 0x0010 the state it leaves is itself one that a matching RTS may start from. -/
theorem witness_o39 : ∃ t, exec (.jsr 0x0300) (cpu 0x0010) = .next t ∧ ∃ u : State, u.s = t.s ∧
    u.mem.read (0x0100 + (cpu 0x0010).s.toNat) = t.mem.read (0x0100 + (cpu 0x0010).s.toNat) :=
  ⟨_, rfl, _, rfl, rfl⟩

theorem witness_o41 : (0x80 : Byte) = (stored 0x0100 [0x80] { cpu 0x0200 with s := 0xFF }).mem.read
    (0x0100 + ((stored 0x0100 [0x80] { cpu 0x0200 with s := 0xFF }).s.toNat + 1) % 256) := by decide

theorem witness_o42 : ∃ t, exec .php (cpu 0x0010) = .next t ∧ (∃ u : State, u.s = t.s ∧
    u.mem.read (0x0100 + (cpu 0x0010).s.toNat) = t.mem.read (0x0100 + (cpu 0x0010).s.toNat)) ∧
    ∃ t', exec .pha (cpu 0x0010) = .next t' ∧ ∃ u : State, u.s = t'.s ∧
      u.mem.read (0x0100 + (cpu 0x0010).s.toNat) = t'.mem.read (0x0100 + (cpu 0x0010).s.toNat) :=
  ⟨_, rfl, ⟨_, rfl, rfl⟩, _, rfl, _, rfl, rfl⟩

/-- A branch taken to address 0, and an instruction that is no branch. -/
theorem witness_o44 : (∀ off, takenBranch (cpu 0).flags off (.bne 0xFE) → 0 ≤ ((cpu 0).pc.toNat : Int) + 2 + off.toInt) ∧
    (∀ off, takenBranch (cpu 0).flags off .rts → 0 ≤ ((cpu 0).pc.toNat : Int) + 2 + off.toInt) ∧
    ({ cpu 0 with params := wrapParams } : State).params.pcNegativePolicy ≠ .fault := by
  refine ⟨?_, ?_, by decide⟩
  · rintro off ⟨p, hp, h, -⟩
    simp only [branchTable, List.mem_cons, List.not_mem_nil, or_false] at hp
    rcases hp with rfl | rfl | rfl | rfl | rfl | rfl | rfl | rfl <;> first
      | (cases h; decide)
      | cases h
  · rintro off ⟨p, hp, h, -⟩
    simp only [branchTable, List.mem_cons, List.not_mem_nil, or_false] at hp
    rcases hp with rfl | rfl | rfl | rfl | rfl | rfl | rfl | rfl <;> cases h

/-- A halted state of each of the three kinds, and one that is not halted. -/
theorem witness_o45 : (cpu 0x0300).pc ≠ 0xFFFE ∧ (cpu 0x0300).halted = true ∧
    instrAt (coded [0x4C, 0x00, 0x03] (cpu 0x0300)) 0x0300 = .ok (.jmp 0x0300) ∧
    (coded [0x4C, 0x00, 0x03] (cpu 0x0300)).halted = true ∧
    instrAt (coded [0xD0, 0xFE] (cpu 0x0300)) 0x0300 = .ok (.bne 0xFE) ∧
    (coded [0xD0, 0xFE] (cpu 0x0300)).halted = true ∧ (coded [0xEA] (cpu 0x0300)).halted = false := by decide

/-- The vector points to JMP $FFFE, to a NOP at 0xFFFD, and holds 0xFFFE itself; a PHA at the vector is not halted. -/
theorem witness_o46 :
    instrAt (stored 0x0300 [0x4C, 0xFE, 0xFF] (stored 0xFFFE [0x00, 0x03] State.reset))
      (vectorWord (stored 0x0300 [0x4C, 0xFE, 0xFF] (stored 0xFFFE [0x00, 0x03] State.reset))) = .ok (.jmp 0xFFFE) ∧
    (stored 0x0300 [0x4C, 0xFE, 0xFF] (stored 0xFFFE [0x00, 0x03] State.reset)).halted = true ∧
    instrAt (stored 0xFFFD [0xEA, 0xFD, 0xFF] State.reset)
      (vectorWord (stored 0xFFFD [0xEA, 0xFD, 0xFF] State.reset)) = .ok .nop ∧
    (stored 0xFFFD [0xEA, 0xFD, 0xFF] State.reset).halted = true ∧
    vectorWord (stored 0xFFFE [0xFE, 0xFF] State.reset) = 0xFFFE ∧
    instrAt (stored 0xFFFE [0xFE, 0xFF] State.reset) 0xFFFE = .error (.unrecognised 0xFE) ∧
    (stored 0xFFFE [0xFE, 0xFF] State.reset).params.unrecognisedOpcodeAdvance = 0 ∧
    instrAt (stored 0xFFFD [0x48, 0xFD, 0xFF] State.reset)
      (vectorWord (stored 0xFFFD [0x48, 0xFD, 0xFF] State.reset)) = .ok .pha := by decide

theorem witness_o48_completed : ∃ t, assemble "NOP".toList (cpu 0x1234) = .completed t [] := ⟨_, by rfl⟩

theorem witness_o48_refused : assemble ".ORG $FFFF\nNOP\nend:".toList State.reset =
    .refused .invalidAddress [⟨.invalidAddress, 3⟩] := test_assemble_as25

theorem witness_o49 : ({ cpu 0x1234 with a := 7 } : State).params = State.reset.params ∧
    ({ cpu 0x1234 with a := 7 } : State) ≠ State.reset := ⟨rfl, by decide⟩

theorem witness_o50 : (Pass.start defaultParams).stopped = false ∧
    parseLine (Pass.start defaultParams).state.params.opcodeMap (cleanLine "LDA #5".toList) = .error .badImmediate ∧
    ({ Pass.start defaultParams with stopped := true } : Pass).stopped = true := by decide

theorem witness_o51_directive :
    firstWord ".FOO $12".toList ∉ [".ORG".toList, ".BYTE".toList, ".WORD".toList] := by decide

theorem witness_o51_mnemonic : classify (afterFirstWord "lda #$05".toList) = .ok (.imm 5) ∧
    mnemonicOf (firstWord "lda #$05".toList) = none := by decide

theorem witness_o51_pair : classify (afterFirstWord "STA #$01".toList) = .ok (.imm 1) ∧
    mnemonicOf (firstWord "STA #$01".toList) = some .sta ∧ operandMode .sta (.imm 1) = some .imm ∧
    OpcodeMap.rowFor defaultOpcodeMap .sta .imm = none := by decide

theorem witness_o51_accumulator : afterFirstWord "INX A".toList = "A".toList ∧
    mnemonicOf (firstWord "INX A".toList) = some .inx ∧ Mnemonic.inx ∉ [Mnemonic.asl, .lsr, .rol, .ror] := by decide

theorem witness_o51_indirect : ',' ∉ "$1234".toList ∧ trim "$1234".toList ≠ [] ∧
    mnemonicOf (firstWord "JMP ($1234)".toList) = some .jmp ∧ mnemonicOf (firstWord "JSR ($1234,X)".toList) = some .jsr ∧
    afterFirstWord "JMP ($1234)".toList = '(' :: ("$1234".toList ++ ")".toList) ∧
    ',' ∉ "f".toList ∧ trim "f".toList ≠ [] ∧ mnemonicOf (firstWord "JSR (f)".toList) = some .jsr ∧
    afterFirstWord "JSR (f)".toList = '(' :: ("f".toList ++ ")".toList) ∧
    afterFirstWord "JMP [$1234]".toList = '[' :: ("$1234".toList ++ "]".toList) ∧
    afterFirstWord "JSR ($1234,X)".toList = '(' :: ("$1234".toList ++ ",X)".toList) := by decide

/-- A state in the middle of an assembly: the cursor, and a label `a` at 0. -/
def assembling (cursor : Nat) : State :=
  { State.reset with asm := { cursor := cursor, labels := [("a".toList, 0)], patches := [] } }

theorem witness_o51_label : (assembling 1).asm.addressOf "a".toList = some 0 := by decide

theorem witness_o52 : OpcodeMap.wf (assembling 65534).params.opcodeMap = true ∧
    ⟨0xF0, .beq, .rel⟩ ∈ (assembling 65534).params.opcodeMap ∧ operandMode .beq (.label "a".toList) = some .rel ∧
    (assembling 65534).asm.cursor + Mode.length .rel ≤ 65536 :=
  ⟨test_wf_default_map, by decide, rfl, by decide⟩

theorem witness_o53 : (assembling 65534).asm.cursor + [(1 : Byte), 2].length ≤ 65536 ∧ [(1 : Byte), 2, 3] ≠ [] ∧
    65536 < (assembling 65534).asm.cursor + [(1 : Byte), 2, 3].length ∧
    (∀ v ∈ [0, 255, 18], v < 256) ∧ (∀ v ∈ [0, 65535, 0x1234], v < 65536) := by decide

theorem witness_o54_instruction : operandMode .beq (.rel 0) = some .rel ∧
    emitInstr ⟨0xF0, .beq, .rel⟩ (.rel 0) (assembling 65535) = none ∧
    65535 < (assembling 65535).asm.cursor + Mode.length .rel - 1 ∧
    emitInstr ⟨0xF0, .beq, .rel⟩ (.rel 0) (assembling 65534) ≠ none := by decide

theorem witness_o54_label : (assembling 65536).asm.addressOf "b".toList = none ∧ 65535 < (assembling 65536).asm.cursor := by
  decide

theorem witness_o54_line : ({ state := assembling 65536, reports := [], stopped := false } : Pass).stopped = false ∧
    parseLine (assembling 65536).params.opcodeMap (cleanLine "NOP".toList) = .ok (.emit ⟨0xEA, .nop, .null⟩ .null) ∧
    applyAction (.emit ⟨0xEA, .nop, .null⟩ .null) (assembling 65536) = none := by decide

/-- Two lines that pass and a third, a label above 0xFFFF, that does not. -/
theorem witness_o54_refused : linesOf ".ORG $FFFF\nNOP\nend:\nNOP".toList =
      [".ORG $FFFF".toList, "NOP".toList] ++ "end:".toList :: ["NOP".toList] ∧
    ∃ q, runLines 1 [".ORG $FFFF".toList, "NOP".toList] (Pass.start defaultParams) = .ok q ∧
      runLine (1 + [".ORG $FFFF".toList, "NOP".toList].length) "end:".toList q = .error [⟨.invalidAddress, 3⟩] :=
  ⟨by decide, _, by rfl, by rfl⟩

theorem witness_o55 : (assembling 65534).mem.wf ∧ (assembling 65534).asm.addressOf "b".toList = none ∧
    labelMode .beq = some .rel ∧ (assembling 65534).asm.cursor + Mode.length .rel ≤ 65536 ∧
    labelMode .jmp = some .abs ∧ (assembling 65533).asm.cursor + Mode.length .abs ≤ 65536 := by decide

theorem witness_o56 : -128 ≤ ((0x0182 : Word).toNat : Int) - ((cpu 0x0200).pc.toNat + 2) ∧
    ((0x0281 : Word).toNat : Int) - ((cpu 0x0200).pc.toNat + 2) ≤ 127 ∧
    (0x0182 : Word).toNat = 0x0202 - 128 ∧ (0x0281 : Word).toNat = 0x0202 + 127 := by decide

/-- The flags of `cpu` take BPL, BVC, BCC and BNE (see also `witness_o34_conditions`). -/
theorem witness_o56_taken : ∃ p ∈ branchTable, p.2 (cpu 0x0200).flags = true :=
  ⟨branchTable[6], by simp [branchTable], rfl⟩

theorem witness_o58_completed : ∃ t, assemble "NOP".toList (⟨cpu 0x1234, some .pcOutOfRange⟩ : Session).state =
    .completed t [] := ⟨_, by rfl⟩

theorem witness_o58_refused : assemble ".ORG $FFFF\nNOP\nend:".toList Session.start.state =
    .refused .invalidAddress [⟨.invalidAddress, 3⟩] := test_assemble_as25

theorem witness_o58_sessions : (⟨cpu 0x1234, some .pcOutOfRange⟩ : Session).state.params = Session.start.state.params ∧
    (⟨cpu 0x1234, some .pcOutOfRange⟩ : Session) ≠ Session.start := ⟨rfl, by decide⟩

theorem witness_o58_steps : Session.start.fault = none ∧ step Session.start.state = .next (cpu 0xFFFF) ∧
    faultOf (coded [0xD0, 0xF8] (cpu 0)) = some .pcOutOfRange :=
  ⟨rfl, step_of_after test_sc2_unwritten_vector, test_sc9_branch_below_zero⟩

theorem witness_o59 : Session.start.state.wf := witness_o18.1

theorem witness_o60_branch : classify (afterFirstWord "BNE (v)".toList) = .ok (.label "(v)".toList) ∧
    mnemonicOf (firstWord "BNE (v)".toList) = some .bne ∧ labelMode .bne = some .rel ∧
    OpcodeMap.rowFor defaultOpcodeMap .bne .rel = some ⟨0xD0, .bne, .rel⟩ ∧
    Mnemonic.bne ≠ .jmp ∧ Mnemonic.bne ≠ .jsr := by decide

/-- Texts that open with a bracket and are no indirect form: names of labels. -/
theorem witness_o60_jmp : classify (afterFirstWord "JMP (a,Y)".toList) = .ok (.label "(a,Y)".toList) ∧
    mnemonicOf (firstWord "JMP (a,Y)".toList) = some .jmp ∧ labelMode .jmp = some .abs ∧
    OpcodeMap.rowFor defaultOpcodeMap .jmp .abs = some ⟨0x4C, .jmp, .abs⟩ ∧
    indirectForm "(a,Y)".toList = none ∧ indirectForm "(v".toList = none ∧ indirectForm "t,X".toList = none := by decide

theorem witness_o60_jsr : afterFirstWord "JSR [f]".toList = '[' :: "f]".toList ∧
    mnemonicOf (firstWord "JSR [f]".toList) = some .jsr ∧
    OpcodeMap.rowFor defaultOpcodeMap .jsr .abs = some ⟨0x20, .jsr, .abs⟩ := by decide

theorem witness_o60_forms : (indirectForm "($1234, X)".toList).isSome = true ∧ trim "$1234".toList ≠ [] ∧
    ',' ∉ "$1234".toList ∧ ',' ∉ " X".toList ∧ trim " X".toList = ['X'] := by decide

end Sys2Proof.Tests
end

section
/-! PROOFS. The statements of the scope (00_scope.md R5, R8): what no step changes, which label operands are emitted, and
the parameters after reset. -/

namespace Sys2Proof.Machine

-- The handshake changes the PC alone (40_step_cycle.md R131)

@[simp] theorem State.handshake_params (s : State) : s.handshake.params = s.params := by
  rw [s.handshake_eq_setPc, State.setPc_params]

@[simp] theorem State.handshake_asm (s : State) : s.handshake.asm = s.asm := by
  rw [s.handshake_eq_setPc, State.setPc_asm]

-- The pieces of a text at a separator, inverted

theorem splitAtChar_ne_nil (c : Char) (t : Text) : splitAtChar c t ≠ [] := by
  rcases splitAtChar_cases c t with ⟨-, h⟩ | ⟨_, _, -, -, h⟩ <;> simp [h]

/-- One piece: the text has no separator. -/
theorem splitAtChar_eq_singleton {c : Char} {t a : Text} : splitAtChar c t = [a] ↔ c ∉ a ∧ t = a := by
  constructor
  · intro h
    rcases splitAtChar_cases c t with ⟨ht, e⟩ | ⟨b, u, -, -, e⟩ <;> rw [e] at h
    · obtain rfl : t = a := by simpa using h
      exact ⟨ht, rfl⟩
    · exact absurd (List.cons.inj h).2 (splitAtChar_ne_nil c u)
  · rintro ⟨ha, rfl⟩
    exact splitAtChar_of_not_mem ha

/-- Two pieces: the text has exactly one separator. -/
theorem splitAtChar_eq_pair {c : Char} {t a b : Text} :
    splitAtChar c t = [a, b] ↔ c ∉ a ∧ c ∉ b ∧ t = a ++ c :: b := by
  constructor
  · intro h
    rcases splitAtChar_cases c t with ⟨-, e⟩ | ⟨d, u, hd, rfl, e⟩ <;> rw [e] at h
    · simp at h
    · obtain ⟨rfl, hu⟩ := List.cons.inj h
      obtain ⟨hb, rfl⟩ := splitAtChar_eq_singleton.mp hu
      exact ⟨hd, hb, rfl⟩
  · rintro ⟨ha, hb, rfl⟩
    rw [splitAtChar_append ha, splitAtChar_of_not_mem hb]

-- The texts of the indirect forms (00_scope.md R5)

/-- The text is one of the indirect form's: its address without a comma, not blank, between the form's brackets. -/
def IndirectForm.Spells : IndirectForm → Text → Prop
  | .plain address, t => ',' ∉ address ∧ trim address ≠ [] ∧ t = '(' :: (address ++ [')'])
  | .byX address, t => ',' ∉ address ∧ trim address ≠ [] ∧
      ∃ index, ',' ∉ index ∧ trim index = ['X'] ∧ t = '(' :: (address ++ ',' :: (index ++ [')']))
  | .long address, t => ',' ∉ address ∧ trim address ≠ [] ∧ t = '[' :: (address ++ [']'])

theorem indirectForm_of_spells {f : IndirectForm} {t : Text} (h : f.Spells t) : indirectForm t = some f := by
  cases f with
  | plain address =>
    obtain ⟨hc, ha, rfl⟩ := h
    simp [indirectForm, splitAtChar_of_not_mem hc, ha]
  | byX address =>
    obtain ⟨hc, ha, index, hi, hx, rfl⟩ := h
    have hs := splitAtChar_eq_pair.mpr ⟨hc, hi, rfl⟩
    have hl : address ++ ',' :: (index ++ [')']) = (address ++ ',' :: index) ++ [')'] := by simp
    rw [hl]
    simp [indirectForm, -List.append_assoc, -List.cons_append, hs, ha, hx]
  | long address =>
    obtain ⟨hc, ha, rfl⟩ := h
    simp [indirectForm, splitAtChar_of_not_mem hc, ha]

theorem spells_of_indirectForm {f : IndirectForm} {t : Text} (h : indirectForm t = some f) : f.Spells t := by
  unfold indirectForm at h
  split at h
  next rest => -- in parentheses
    split at h
    next hl =>
      obtain ⟨body, rfl⟩ := List.getLast?_eq_some_iff.mp hl
      rw [List.dropLast_concat] at h
      split at h
      next address hs =>
        obtain ⟨hc, rfl⟩ := splitAtChar_eq_singleton.mp hs
        split at h
        · cases h
        next ha =>
          cases h
          exact ⟨hc, ha, rfl⟩
      next address index hs =>
        obtain ⟨hc, hi, rfl⟩ := splitAtChar_eq_pair.mp hs
        split at h
        · cases h
        next ha =>
          cases h
          obtain ⟨ha, hx⟩ := not_or.mp ha
          exact ⟨hc, ha, index, hi, not_not.mp hx, by simp⟩
      · cases h
    · cases h
  next rest => -- in square brackets
    split at h
    next hl =>
      obtain ⟨body, rfl⟩ := List.getLast?_eq_some_iff.mp hl
      rw [List.dropLast_concat] at h
      split at h
      next address hs =>
        obtain ⟨hc, rfl⟩ := splitAtChar_eq_singleton.mp hs
        split at h
        · cases h
        next ha =>
          cases h
          exact ⟨hc, ha, rfl⟩
      · cases h
    · cases h
  · cases h

/-- The indirect form of a text is exactly the one that spells it. -/
theorem indirectForm_eq_some {f : IndirectForm} {t : Text} : indirectForm t = some f ↔ f.Spells t :=
  ⟨spells_of_indirectForm, indirectForm_of_spells⟩

theorem indirectForm_isSome (t : Text) : (indirectForm t).isSome = true ↔ ∃ address, ',' ∉ address ∧ trim address ≠ [] ∧
    (t = '(' :: (address ++ [')']) ∨ t = '[' :: (address ++ [']']) ∨
      ∃ index, ',' ∉ index ∧ trim index = ['X'] ∧ t = '(' :: (address ++ ',' :: (index ++ [')']))) := by
  simp only [Option.isSome_iff_exists, indirectForm_eq_some]
  constructor
  · rintro ⟨f, h⟩
    cases f with
    | plain address => exact ⟨address, h.imp_right (And.imp_right .inl)⟩
    | byX address => exact ⟨address, h.imp_right (And.imp_right (.inr ∘ .inr))⟩
    | long address => exact ⟨address, h.imp_right (And.imp_right (.inr ∘ .inl))⟩
  · rintro ⟨address, hc, ha, h | h | h⟩
    · exact ⟨.plain address, hc, ha, h⟩
    · exact ⟨.long address, hc, ha, h⟩
    · exact ⟨.byX address, hc, ha, h⟩

-- Label operands that no excluded form takes away (30_encoding.md R83, R87)

/-- Only JMP and JSR have excluded forms. -/
theorem excludedForm_of_ne {mn : Mnemonic} (hjmp : mn ≠ .jmp) (hjsr : mn ≠ .jsr) (f : IndirectForm) :
    excludedForm mn f = false := by
  cases mn with
  | jmp => exact absurd rfl hjmp
  | jsr => exact absurd rfl hjsr
  | _ => rfl

theorem absentForm_label_of_ne {mn : Mnemonic} (hjmp : mn ≠ .jmp) (hjsr : mn ≠ .jsr) (t : Text) :
    absentForm mn (.label t) = false := by
  simp [absentForm, Option.any_eq_false, excludedForm_of_ne hjmp hjsr]

theorem absentForm_label_of_not_indirect {t : Text} (h : indirectForm t = none) (mn : Mnemonic) :
    absentForm mn (.label t) = false := by
  simp [absentForm, h]

/-- JSR's excluded forms stand in parentheses. -/
theorem absentForm_jsr_bracket (rest : Text) : absentForm .jsr (.label ('[' :: rest)) = false := by
  refine (Option.any_eq_false _ _).mpr fun f h => ?_
  cases f with
  | plain address =>
    obtain ⟨-, -, e⟩ := indirectForm_eq_some.mp h
    simp at e
  | byX address =>
    obtain ⟨-, -, _, -, -, e⟩ := indirectForm_eq_some.mp h
    simp at e
  | long address => simp [excludedForm]

/-- A text that opens with a square bracket is of the class LABEL. -/
theorem classify_bracket (rest : Text) : classify ('[' :: rest) = .ok (.label ('[' :: rest)) := by
  have hd : decimalLiteral ('[' :: rest) = none := by simp [decimalLiteral, digitsOf, decimalDigit]
  simp [classify, signedDecimal, hd]

/-- An instruction line with a label operand asks for the row of its pair, unless its form is absent
(30_encoding.md R90, R91). -/
theorem parseInstr_label {m : OpcodeMap} {line t : Text} {mn : Mnemonic} {k : Mode} {row : OpcodeRow}
    (hc : classify (afterFirstWord line) = .ok (.label t)) (hm : mnemonicOf (firstWord line) = some mn)
    (hk : labelMode mn = some k) (hr : m.rowFor mn k = some row) (ha : absentForm mn (.label t) = false) :
    parseInstr m line = .ok (.emit row (.label t)) := by
  simp [parseInstr, hc, hm, operandMode, hk, operandRow, ha, hr]

-- The statements

/-- Settles O20: the handshake keeps both, and so does each of the two things a step can then be. -/
theorem stepKeepsParametersAndAssembler : Obligations.StepKeepsParametersAndAssembler := by
  intro s t h
  rcases step_cases s with ⟨i, -, hs⟩ | ⟨e, -, hs⟩ <;> rw [hs] at h
  · obtain ⟨hp, ha, -⟩ := exec_next_keeps h
    exact ⟨hp.trans s.handshake_params, ha.trans s.handshake_asm⟩
  · rw [State.skipUnrecognised_eq] at h
    cases h
    simp

/-- Settles O60: the form of a label operand is absent only for an excluded indirect form, and the texts of those are
inverted by `indirectForm_eq_some`. -/
theorem labelOperandsAreEmitted : Obligations.LabelOperandsAreEmitted := by
  refine ⟨?_, ?_, indirectForm_isSome⟩
  · rintro m line t mn k row hc hm hk hr (⟨hjmp, hjsr⟩ | hi)
    · exact parseInstr_label hc hm hk hr (absentForm_label_of_ne hjmp hjsr t)
    · exact parseInstr_label hc hm hk hr (absentForm_label_of_not_indirect hi mn)
  · intro m line rest row hm ht hr
    exact parseInstr_label (ht ▸ classify_bracket rest) hm rfl hr (absentForm_jsr_bracket rest)

/-- Settles O2: the parameters of reset are the default ones, whose map is well formed. -/
theorem defaultParameters : Obligations.DefaultParameters :=
  ⟨rfl, rfl, rfl, rfl, rfl, rfl, defaultOpcodeMap_wf⟩

end Sys2Proof.Machine
end

section
/-! PROOFS. The statements of the state (10_state.md): the packed status byte, the reset state, which instructions write
and read a flag or a register, and what an assembly takes from the machine. -/

namespace Sys2Proof.Machine

-- The packed status byte (10_state.md R27, R28)

theorem Flags.unpack_pack (f : Flags) : Flags.unpack f.pack = f := by
  have h : ∀ n v bh bl d i z c, Flags.unpack (Flags.pack ⟨n, v, bh, bl, d, i, z, c⟩) = ⟨n, v, bh, bl, d, i, z, c⟩ := by
    decide +kernel
  exact h ..

theorem Flags.pack_unpack (b : Byte) : (Flags.unpack b).pack = b := by
  revert b; decide +kernel

-- The tables of R29, turned round: the flags of a mnemonic

/-- The flags whose row names the mnemonic as a writer. -/
def flagsWrittenBy (m : Mnemonic) (plaSetsNz : Bool) : List FlagName :=
  match m with
  | .adc | .sbc => [.n, .z, .v, .c]
  | .asl | .lsr | .rol | .ror | .cmp | .cpx | .cpy => [.n, .z, .c]
  | .bit => [.n, .z, .v]
  | .clc | .sec => [.c]
  | .cli | .sei => [.i]
  | .clv => [.v]
  | .cld | .sed => [.d]
  | .plp => [.n, .v, .bh, .bl, .d, .i, .z, .c]
  | .pla => if plaSetsNz then [.n, .z] else []
  | .lda | .ldx | .ldy | .tax | .txa | .tay | .tya | .tsx | .txs | .and | .ora | .eor | .inx | .iny | .dex | .dey =>
      [.n, .z]
  | .sta | .stx | .sty | .bpl | .bmi | .bvc | .bvs | .bcc | .bcs | .bne | .beq | .jmp | .jsr | .rts | .pha | .php
  | .nop => []

/-- The flags whose row names the mnemonic as a reader. -/
def flagsReadBy : Mnemonic → List FlagName
  | .adc | .sbc => [.d, .c]
  | .rol | .ror | .bcc | .bcs => [.c]
  | .bpl | .bmi => [.n]
  | .bvc | .bvs => [.v]
  | .bne | .beq => [.z]
  | .php => [.n, .v, .bh, .bl, .d, .i, .z, .c]
  | _ => []

theorem mnemonic_mem_all (m : Mnemonic) : m ∈ Mnemonic.all := by
  cases m <;> decide

theorem mem_flagsWrittenBy {m : Mnemonic} {p : Bool} {k : FlagName} :
    k ∈ flagsWrittenBy m p ↔ m ∈ flagWriters p k := by
  suffices ∀ m ∈ Mnemonic.all, ∀ p, k ∈ flagsWrittenBy m p ↔ m ∈ flagWriters p k from this m (mnemonic_mem_all m) p
  cases k <;> decide +kernel

theorem mem_flagsReadBy {m : Mnemonic} {k : FlagName} : k ∈ flagsReadBy m ↔ m ∈ flagReaders k := by
  suffices ∀ m ∈ Mnemonic.all, k ∈ flagsReadBy m ↔ m ∈ flagReaders k from this m (mnemonic_mem_all m)
  cases k <;> decide +kernel

-- One flag replaced

/-- The state with one flag replaced. -/
def State.putFlag (s : State) (k : FlagName) (b : Bool) : State := s.setFlags (s.flags.put k b)

@[simp] theorem State.putFlag_flags (s : State) (k : FlagName) (b : Bool) : (s.putFlag k b).flags = s.flags.put k b := rfl
@[simp] theorem State.putFlag_params (s : State) (k : FlagName) (b : Bool) : (s.putFlag k b).params = s.params := rfl

theorem Flags.get_put (f : Flags) (k j : FlagName) (b : Bool) : (f.put k b).get j = if k = j then b else f.get j := by
  cases k <;> cases j <;> rfl

theorem Flags.put_put (f : Flags) (k j : FlagName) (b c : Bool) :
    (f.put k b).put j c = if k = j then f.put j c else (f.put j c).put k b := by
  cases k <;> cases j <;> rfl

/-- The finish of an instruction does not look at the flags: with one flag replaced it answers the same but for that
flag. -/
theorem agreeButFlag_finish (k : FlagName) (b : Bool) (s : State) (npc : Int) :
    agreeButFlag k (s.finish npc) ((s.putFlag k b).finish npc) := by
  have next (w : Word) : agreeButFlag k (.next (s.setPc w)) (.next ((s.putFlag k b).setPc w)) :=
    congrArg (s.setPc w).setFlags ((s.flags.put_put k k b false).trans (if_pos rfl)).symm
  by_cases h : 0 ≤ npc
  · simpa only [State.finish_nonneg _ h] using next _
  · simp only [State.finish_negative _ (Int.not_le.mp h), State.putFlag_params]
    cases s.params.pcNegativePolicy with
    | fault => exact rfl
    | sentinel => exact next _
    | wrap => exact next _

theorem agreeButFlag_refl (k : FlagName) (r : Result) : agreeButFlag k r r := by
  cases r <;> exact rfl

-- Values that few flags have a part in

/-- The value does not change with a flag outside `R`. -/
def ReadsAtMost {α : Type} (R : List FlagName) (v : State → α) : Prop :=
  ∀ s k b, k ∉ R → v (s.putFlag k b) = v s

theorem ReadsAtMost.comp {α β : Type} {R : List FlagName} {v : State → α} (h : ReadsAtMost R v) (f : α → β) :
    ReadsAtMost R fun s => f (v s) :=
  fun s k b hk => congrArg f (h s k b hk)

theorem ReadsAtMost.setReg {R : List FlagName} {v : State → Byte} (h : ReadsAtMost R v) (r : Reg) (g : Flags) :
    ReadsAtMost R fun s => (s.setReg r (v s)).setFlags g :=
  fun s k b hk => by simp only [h s k b hk]; cases r <;> rfl

theorem ReadsAtMost.memWrite {R : List FlagName} {v : State → Byte} (h : ReadsAtMost R v) (a : Word) (g : Flags) :
    ReadsAtMost R fun s => (s.memWrite a (v s)).setFlags g :=
  fun s k b hk => by simp only [h s k b hk]; rfl

theorem readsAtMost_get {α : Type} (j : FlagName) {v : Bool → State → α} (h : ∀ x s f, v x (s.setFlags f) = v x s) :
    ReadsAtMost [j] fun s => v (s.flags.get j) s := by
  intro s k b hk
  have hkj : k ≠ j := by simpa using hk
  simp only [State.putFlag_flags, Flags.get_put, hkj, if_false]
  exact h ..

theorem readsAtMost_all {α : Type} (v : State → α) : ReadsAtMost [.n, .v, .bh, .bl, .d, .i, .z, .c] v :=
  fun _ k _ hk => by cases k <;> simp at hk

/-- ADC reads C, and D through the reinterpreted operand. -/
theorem readsAtMost_adc {m : State → Byte} (hm : ∀ s f, m (s.setFlags f) = m s) :
    ReadsAtMost [.d, .c] fun s => (adcSum s.flags s.a (m s), decimalOperand s.flags.d (m s)) := by
  intro s k b hk
  cases k <;> simp [State.putFlag, Flags.put, adcSum, hm] at hk ⊢

/-- SBC reads C, and D through the reinterpreted operand. -/
theorem readsAtMost_sbc {m : State → Byte} (hm : ∀ s f, m (s.setFlags f) = m s) :
    ReadsAtMost [.d, .c] fun s => (sbcDifference s.flags s.a (m s), decimalOperand s.flags.d (m s)) := by
  intro s k b hk
  cases k <;> simp [State.putFlag, Flags.put, sbcDifference, hm] at hk ⊢

-- What an instruction makes of the flags

/-- A computation of new flags that writes the flags of `W`, leaves the others, and reads at most those of `R`. -/
structure FlagUpdate (W : Bool → List FlagName) (R : List FlagName) (G : State → Flags) : Prop where
  keeps {s k} : k ∉ W s.params.plaSetsNz → (G s).get k = s.flags.get k
  put {s k} (b) : k ∉ R → G (s.putFlag k b) = if k ∈ W s.params.plaSetsNz then G s else (G s).put k b

section FlagUpdates
variable {R : List FlagName}

theorem FlagUpdate.none : FlagUpdate (fun _ => []) R State.flags where
  keeps _ := rfl
  put _ _ := rfl

theorem FlagUpdate.one (j : FlagName) (b : Bool) : FlagUpdate (fun _ => [j]) R fun s => s.flags.put j b where
  keeps h := (Flags.get_put ..).trans (if_neg fun e => h (by simp [e]))
  put _ _ := by simp only [State.putFlag_flags, List.mem_singleton]; exact Flags.put_put ..

theorem FlagUpdate.nz {v : State → Byte} (hv : ReadsAtMost R v) :
    FlagUpdate (fun _ => [.n, .z]) R fun s => s.flags.setNZ (v s) where
  keeps {_ k} h := by cases k <;> simp [Flags.get] at h ⊢
  put {_ k} _ h := by rw [hv _ _ _ h]; cases k <;> rfl

theorem FlagUpdate.nzc {v : State → Byte} {c : State → Bool} (hv : ReadsAtMost R v) (hc : ReadsAtMost R c) :
    FlagUpdate (fun _ => [.n, .z, .c]) R fun s => { s.flags.setNZ (v s) with c := c s } where
  keeps {_ k} h := by cases k <;> simp [Flags.get] at h ⊢
  put {_ k} _ h := by rw [hv _ _ _ h, hc _ _ _ h]; cases k <;> rfl

theorem FlagUpdate.nzvc {v : State → Byte} {c o : State → Bool} (hv : ReadsAtMost R v) (hc : ReadsAtMost R c)
    (ho : ReadsAtMost R o) :
    FlagUpdate (fun _ => [.n, .z, .v, .c]) R fun s => { s.flags.setNZ (v s) with c := c s, v := o s } where
  keeps {_ k} h := by cases k <;> simp [Flags.get] at h ⊢
  put {_ k} _ h := by rw [hv _ _ _ h, hc _ _ _ h, ho _ _ _ h]; cases k <;> rfl

theorem FlagUpdate.bit {m : State → Byte} (hm : ReadsAtMost R m) :
    FlagUpdate (fun _ => [.n, .z, .v]) R fun s => bitFlags s.flags s.a (m s) where
  keeps {_ k} h := by cases k <;> simp [Flags.get, bitFlags] at h ⊢
  put {_ k} _ h := by rw [hm _ _ _ h]; cases k <;> rfl

theorem FlagUpdate.all {g : State → Flags} (hg : ReadsAtMost R g) :
    FlagUpdate (fun _ => [.n, .v, .bh, .bl, .d, .i, .z, .c]) R g where
  keeps {_ k} h := by cases k <;> simp at h
  put {_ k} _ h := by rw [hg _ _ _ h]; cases k <;> rfl

/-- A parameter chooses between two updates (47_flag_stack_nop.md R260). -/
theorem FlagUpdate.ofParam {W W' : List FlagName} {G G' : State → Flags} (h : FlagUpdate (fun _ => W) R G)
    (h' : FlagUpdate (fun _ => W') R G') :
    FlagUpdate (fun p => if p then W else W') R fun s => if s.params.plaSetsNz then G s else G' s where
  keeps {s k} hk := by
    cases hp : s.params.plaSetsNz <;> simp only [hp] at hk ⊢
    · exact h'.keeps hk
    · exact h.keeps hk
  put {s k} b hk := by
    cases hp : s.params.plaSetsNz <;> simp only [State.putFlag_params, hp]
    · exact h'.put b hk
    · exact h.put b hk

end FlagUpdates

/-- The instruction is an update `u` of the state, with the flags `G`, and a finish; it writes at most the flags of `W`
and reads at most those of `R`. -/
structure ActsOnFlags (W : Bool → List FlagName) (R : List FlagName) (i : Instr) (u : State → State)
    (G : State → Flags) (npc : State → Int) : Prop where
  answer (s) : exec i s = ((u s).setFlags (G s)).finish (npc s)
  flags : FlagUpdate W R G
  rest (g) : ReadsAtMost R fun s => (u s).setFlags g
  target : ReadsAtMost R npc

section Classes
variable {i : Instr} {R : List FlagName}

/-- An instruction that leaves the flags alone. -/
theorem actsOnFlags_none {u : State → State} {npc : State → Int} (h : ∀ s, exec i s = (u s).finish (npc s))
    (hu : ∀ s f, u (s.setFlags f) = (u s).setFlags f) (hn : ReadsAtMost R npc) :
    ∃ u G npc, ActsOnFlags (fun _ => []) R i u G npc := by
  refine ⟨u, State.flags, npc, fun s => ?_, .none, fun g s k b _ => ?_, hn⟩
  · exact (h s).trans (congrArg (State.finish · (npc s)) (hu s s.flags))
  · simp only [State.putFlag, hu]
    rfl

theorem actsOnFlags_branch {off : Byte} (j : FlagName) (c : Bool → Bool)
    (h : ∀ s, exec i s = branch (c (s.flags.get j)) off s) : ∃ u G npc, ActsOnFlags (fun _ => []) [j] i u G npc :=
  actsOnFlags_none h (fun _ _ => rfl)
    (readsAtMost_get j (v := fun x s => if c x then (s.pc.toNat : Int) + 2 + signedOffset off else s.pc.toNat + 2)
      fun _ _ _ => rfl)

theorem actsOnFlags_put (j : FlagName) (b : Bool) (h : ∀ s, exec i s = putFlags (s.flags.put j b) s) :
    ∃ u G npc, ActsOnFlags (fun _ => [j]) [] i u G npc :=
  ⟨_, _, _, h, .one j b, fun _ _ _ _ _ => rfl, fun _ _ _ _ => rfl⟩

/-- A shift of the accumulator that takes the carry in. -/
theorem actsOnFlags_rotateAcc {op : Bool → Byte → Byte × Bool} (h : ∀ s, exec i s = shiftAcc op s) :
    ∃ u G npc, ActsOnFlags (fun _ => [.n, .z, .c]) [.c] i u G npc := by
  have hp := readsAtMost_get .c (v := fun c s => op c s.a) fun _ _ _ => rfl
  exact ⟨_, _, _, h, .nzc (hp.comp Prod.fst) (hp.comp Prod.snd), (hp.comp Prod.fst).setReg .a, fun _ _ _ _ => rfl⟩

/-- A shift of a cell that takes the carry in. -/
theorem actsOnFlags_rotateMem {op : Bool → Byte → Byte × Bool} {ea : Word} (h : ∀ s, exec i s = shiftMem op ea s) :
    ∃ u G npc, ActsOnFlags (fun _ => [.n, .z, .c]) [.c] i u G npc := by
  have hp := readsAtMost_get .c (v := fun c s => op c (s.memRead ea)) fun _ _ _ => rfl
  exact ⟨_, _, _, h, .nzc (hp.comp Prod.fst) (hp.comp Prod.snd), (hp.comp Prod.fst).memWrite ea, fun _ _ _ _ => rfl⟩

theorem actsOnFlags_adc {m : State → Byte} {len : Nat} (h : ∀ s, exec i s = adc (m s) len s)
    (hm : ∀ s f, m (s.setFlags f) = m s) : ∃ u G npc, ActsOnFlags (fun _ => [.n, .z, .v, .c]) [.d, .c] i u G npc := by
  have hp := readsAtMost_adc hm
  have hr := hp.comp fun p => BitVec.ofNat 8 p.1
  exact ⟨_, _, _, h, .nzvc hr (hp.comp fun p => decide (0xFF < p.1))
    (hp.comp fun p => overflowHeuristic p.2 (BitVec.ofNat 8 p.1)), hr.setReg .a, fun _ _ _ _ => rfl⟩

theorem actsOnFlags_sbc {m : State → Byte} {len : Nat} (h : ∀ s, exec i s = sbc (m s) len s)
    (hm : ∀ s f, m (s.setFlags f) = m s) : ∃ u G npc, ActsOnFlags (fun _ => [.n, .z, .v, .c]) [.d, .c] i u G npc := by
  have hp := readsAtMost_sbc hm
  have hr := hp.comp fun p => BitVec.ofInt 8 p.1
  exact ⟨_, _, _, h, .nzvc hr (hp.comp fun p => decide (p.1 < 0))
    (hp.comp fun p => overflowHeuristic p.2 (BitVec.ofInt 8 p.1)), hr.setReg .a, fun _ _ _ _ => rfl⟩

end Classes

/-- Every instruction writes and reads at most the flags that R29 names for it; the last arm is the loads, transfers,
logical operations, increments and decrements, which set N and Z from a value that no flag has a part in. -/
theorem exec_actsOnFlags (i : Instr) :
    ∃ u G npc, ActsOnFlags (flagsWrittenBy i.mnemonic) (flagsReadBy i.mnemonic) i u G npc := by
  cases i with
  | sta _ | stx _ | sty _ | jmp _ | jsr _ | rts | pha | nop =>
    exact actsOnFlags_none (fun _ => rfl) (fun _ _ => rfl) fun _ _ _ _ => rfl
  | php =>
    exact ⟨fun s => s.push s.flags.pack, State.flags, fun s => s.pc.toNat + 1, fun _ => rfl, .none,
      fun _ => readsAtMost_all _, readsAtMost_all _⟩
  | bpl _ => exact actsOnFlags_branch .n (!·) fun _ => rfl
  | bmi _ => exact actsOnFlags_branch .n id fun _ => rfl
  | bvc _ => exact actsOnFlags_branch .v (!·) fun _ => rfl
  | bvs _ => exact actsOnFlags_branch .v id fun _ => rfl
  | bcc _ => exact actsOnFlags_branch .c (!·) fun _ => rfl
  | bcs _ => exact actsOnFlags_branch .c id fun _ => rfl
  | bne _ => exact actsOnFlags_branch .z (!·) fun _ => rfl
  | beq _ => exact actsOnFlags_branch .z id fun _ => rfl
  | clc => exact actsOnFlags_put .c false fun _ => rfl
  | sec => exact actsOnFlags_put .c true fun _ => rfl
  | cli => exact actsOnFlags_put .i false fun _ => rfl
  | sei => exact actsOnFlags_put .i true fun _ => rfl
  | clv => exact actsOnFlags_put .v false fun _ => rfl
  | cld => exact actsOnFlags_put .d false fun _ => rfl
  | sed => exact actsOnFlags_put .d true fun _ => rfl
  | plp => exact ⟨_, _, _, fun _ => rfl, .all fun _ _ _ _ => rfl, fun _ _ _ _ _ => rfl, fun _ _ _ _ => rfl⟩
  | pla =>
    exact ⟨_, _, _, exec_pla, .ofParam (.nz fun _ _ _ _ => rfl) .none, fun _ _ _ _ _ => rfl, fun _ _ _ _ => rfl⟩
  | bit _ => exact ⟨_, _, _, fun _ => rfl, .bit fun _ _ _ _ => rfl, fun _ _ _ _ _ => rfl, fun _ _ _ _ => rfl⟩
  | adcImm _ | adcAbs _ => exact actsOnFlags_adc (fun _ => rfl) fun _ _ => rfl
  | sbcImm _ | sbcAbs _ => exact actsOnFlags_sbc (fun _ => rfl) fun _ _ => rfl
  | rolA | rorA => exact actsOnFlags_rotateAcc fun _ => rfl
  | rolAbs _ | rorAbs _ => exact actsOnFlags_rotateMem fun _ => rfl
  | aslA | aslAbs _ | lsrA | lsrAbs _ | cmpImm _ | cmpAbs _ | cpxImm _ | cpxAbs _ | cpyImm _ | cpyAbs _ =>
    exact ⟨_, _, _, fun _ => rfl, .nzc (fun _ _ _ _ => rfl) fun _ _ _ _ => rfl, fun _ _ _ _ _ => rfl,
      fun _ _ _ _ => rfl⟩
  | _ => exact ⟨_, _, _, fun _ => rfl, .nz fun _ _ _ _ => rfl, fun _ _ _ _ _ => rfl, fun _ _ _ _ => rfl⟩

/-- An instruction from a state with a flag replaced that it does not read: the same answer where it writes the flag, and
the same with the flag replaced where it does not. -/
theorem exec_putFlag {i : Instr} {k : FlagName} (hk : i.mnemonic ∉ flagReaders k) (s : State) (b : Bool) :
    ∃ (u : State) (npc : Int), exec i s = u.finish npc ∧ exec i (s.putFlag k b) =
      (if i.mnemonic ∈ flagWriters s.params.plaSetsNz k then u else u.putFlag k b).finish npc := by
  obtain ⟨u, G, npc, h⟩ := exec_actsOnFlags i
  have hk := mt mem_flagsReadBy.mp hk
  refine ⟨_, _, h.answer s, ?_⟩
  rw [h.answer, h.target s k b hk]
  refine congrArg (State.finish · (npc s)) ((h.rest _ s k b hk).trans ?_)
  simp only [h.flags.put b hk, mem_flagsWrittenBy]
  split <;> rfl

-- What an instruction makes of the registers

/-- An instruction finishes from a state in which a register it does not write is the old one (10_state.md R20 to R22).
As a choice by the table, each row is true by computation. -/
theorem exec_keeps_reg {i : Instr} {r : Reg} (h : writesReg r i = false) (s : State) :
    ∃ (u : State) (npc : Int), exec i s = u.finish npc ∧ u.reg r = s.reg r := by
  suffices ∃ (u : State) (npc : Int), exec i s = u.finish npc ∧
      u.reg r = if writesReg r i then u.reg r else s.reg r by simpa [h] using this
  cases i with
  | pla => exact ⟨_, _, exec_pla s, by cases r <;> rfl⟩
  | _ => exact ⟨_, _, rfl, by cases r <;> rfl⟩

-- The statements

/-- Settles O21: the new flags of every instruction keep what R29 does not name, and the finish moves the PC alone. -/
theorem flagsWrittenOnlyAsTabulated : Obligations.FlagsWrittenOnlyAsTabulated := by
  intro i s t k h hk
  obtain ⟨u, G, npc, e⟩ := exec_actsOnFlags i
  obtain ⟨w, rfl⟩ := State.of_finish ((e.answer s).symm.trans h)
  exact e.flags.keeps (mt mem_flagsWrittenBy.mp hk)

/-- Settles O22: by `exec_putFlag`, and since the finish does not look at the flags. -/
theorem flagsReadOnlyAsTabulated : Obligations.FlagsReadOnlyAsTabulated := by
  intro i s k b hk
  obtain ⟨u, npc, he, hput⟩ := exec_putFlag hk s b
  rw [show s.setFlags (s.flags.put k b) = s.putFlag k b from rfl, hput, he]
  by_cases hw : i.mnemonic ∈ flagWriters s.params.plaSetsNz k
  · simp only [hw, if_true]
    exact ⟨agreeButFlag_refl k _, fun _ => trivial⟩
  · simp only [hw, if_false]
    exact ⟨agreeButFlag_finish k b u npc, False.elim⟩

/-- Settles O23: the registers before the finish, which moves the PC alone. -/
theorem registersWrittenOnlyByTheirWriters : Obligations.RegistersWrittenOnlyByTheirWriters := by
  intro i s t r h hr
  obtain ⟨u, npc, he, hu⟩ := exec_keeps_reg hr s
  obtain ⟨w, rfl⟩ := State.of_finish (he.symm.trans h)
  cases r <;> exact hu

/-- Settles O6: the bits of the packed byte are what unpacking reads. -/
theorem statusByteLayout : Obligations.StatusByteLayout := by
  refine ⟨fun f => ?_, Flags.unpack_pack, Flags.pack_unpack⟩
  have h := f.unpack_pack
  exact ⟨congrArg Flags.n h, congrArg Flags.v h, congrArg Flags.bh h, congrArg Flags.bl h, congrArg Flags.d h,
    congrArg Flags.i h, congrArg Flags.z h, congrArg Flags.c h⟩

/-- Settles O19: memory is empty, and the default map is well formed. -/
theorem resetMeetsInvariant : Obligations.ResetMeetsInvariant :=
  ⟨⟨Memory.empty_wf, defaultOpcodeMap_wf, rfl⟩, fun _ hp => ⟨Memory.empty_wf, hp, rfl⟩⟩

/-- Settles O49: an assembly starts from `Pass.start` of the parameters, whatever the state. -/
theorem assemblyForgetsTheMachine : Obligations.AssemblyForgetsTheMachine := by
  intro src s t h
  rw [assemble, assemble, h]

end Sys2Proof.Machine
end

section
/-! PROOFS. The statements of the memory (20_memory.md): reads and writes of cells, the canonical form, the stack
primitives, the one cell an instruction writes, and the form of the state that every step keeps. -/

namespace Sys2Proof.Machine

-- The handshake leaves memory alone (40_step_cycle.md R131)

@[simp] theorem State.handshake_mem (s : State) : s.handshake.mem = s.mem := by
  rw [s.handshake_eq_setPc, State.setPc_mem]

-- What an instruction makes of memory

/-- An instruction finishes from a state whose memory is the old one, with one byte written at the address `storeAddr`
gives, if it gives one (20_memory.md R45, R55). -/
theorem exec_mem (i : Instr) (s : State) : ∃ (u : State) (npc : Int) (v : Byte), exec i s = u.finish npc ∧
    u.mem = (storeAddr s i).elim s.mem fun a => s.mem.write a.toNat v := by
  cases i with
  | sta _ | stx _ | sty _ | aslAbs _ | lsrAbs _ | rolAbs _ | rorAbs _ | jsr _ | pha | php =>
    exact ⟨_, _, _, rfl, rfl⟩
  | pla => exact ⟨_, _, 0, exec_pla s, rfl⟩
  | _ => exact ⟨_, _, 0, rfl, rfl⟩

/-- A cell that the instruction does not store to reads as before (20_memory.md R46). -/
theorem exec_keeps_cell {i : Instr} {s t : State} {b : Word} (h : exec i s = .next t) (hb : storeAddr s i ≠ some b) :
    t.mem.read b.toNat = s.mem.read b.toNat := by
  obtain ⟨u, npc, v, he, hu⟩ := exec_mem i s
  obtain ⟨w, rfl⟩ := State.of_finish (he.symm.trans h)
  rw [State.setPc_mem, hu]
  cases hs : storeAddr s i with
  | none => rfl
  | some a => exact Memory.read_write_other _ v fun e => hb (hs.trans (congrArg some (BitVec.eq_of_toNat_eq e).symm))

/-- A step keeps canonical memory: the handshake and an unrecognised opcode leave it alone, an instruction keeps the
form. -/
theorem step_mem_wf {s t : State} (hs : s.mem.wf) (h : step s = .next t) : t.mem.wf := by
  rw [← s.handshake_mem] at hs
  rcases step_cases s with ⟨i, -, he⟩ | ⟨e, -, he⟩ <;> rw [he] at h
  · obtain ⟨-, -, hm⟩ := exec_next_keeps h
    exact hm hs
  · rw [State.skipUnrecognised_eq] at h
    cases h
    exact hs

-- The statements

/-- Settles O18: memory by `step_mem_wf`; the map and the assembler's state do not change at all (O20). -/
theorem stepKeepsInvariant : Obligations.StepKeepsInvariant := by
  intro s t ⟨hmem, hmap, hasm⟩ h
  obtain ⟨hp, ha⟩ := stepKeepsParametersAndAssembler s t h
  exact ⟨step_mem_wf hmem h, hp ▸ hmap, ha.trans hasm⟩

/-- Settles O3: by the memory's read-after-write law; the unwritten memory lists no cell. -/
theorem memoryReadAfterWrite : Obligations.MemoryReadAfterWrite :=
  ⟨Memory.read_write, fun _ => rfl⟩

/-- Settles O4: by the laws of the canonical form. -/
theorem memoryFormIsKept : Obligations.MemoryFormIsKept :=
  ⟨fun _ _ v hm ha => Memory.write_wf hm ha v, fun _ _ => Memory.ext_read⟩

/-- Settles O24: in both clauses the cell is not the one the instruction stores to. -/
theorem memoryWrittenOnlyAtStoreAddress : Obligations.MemoryWrittenOnlyAtStoreAddress := by
  refine ⟨fun i s t a b h hs hb => exec_keeps_cell h fun e => hb ?_, fun i s t b h hs => exec_keeps_cell h ?_⟩
  · exact Option.some.inj (e.symm.trans hs)
  · simp [hs]

/-- Settles O5: the stack address and the new S as numbers. -/
theorem stackPrimitives : Obligations.StackPrimitives := by
  refine ⟨fun s v => ?_, fun s => ⟨?_, ?_⟩⟩
  · rw [← stackAddr_toNat, ← byte_sub_one]
    rfl
  · rw [← byte_add_one]
    rfl
  · rw [State.pulledByte, State.memRead, stackAddr_add_one]

end Sys2Proof.Machine
end

section
/-! PROOFS. The statements of the encoding (30_encoding.md Part A): the round trip between instructions and bytes under
every well-formed opcode map, and the rows of the default map. -/

namespace Sys2Proof

-- The encoder and the decoder over one map (30_encoding.md R67)

/-- The row of an instruction's form is the one the encoder takes. -/
theorem encode_of_row {m : OpcodeMap} (hm : m.Lawful) {r : OpcodeRow} (hr : r ∈ m) {i : Instr}
    (hf : r.form = (i.mnemonic, i.mode)) : encode m i = some (r.opcode :: i.operandBytes) := by
  obtain ⟨e1, e2⟩ := Prod.mk.inj hf
  rw [encode, ← e1, ← e2, hm.rowFor_form hr, Option.map_some]

theorem Mode.length_pos (k : Mode) : 0 < k.length := by cases k <;> decide

theorem Mode.length_le (k : Mode) : k.length ≤ 3 := by cases k <;> decide

theorem operandBytes_length (i : Instr) : i.operandBytes.length + 1 = i.length := by
  obtain ⟨-, -, h⟩ := Laws.FormRoundTrip.all i
  exact h

theorem headD_append {l : List Byte} (h : 1 ≤ l.length) (rest : List Byte) : (l ++ rest).headD 0 = l.headD 0 := by
  cases l with
  | nil => cases h
  | cons a l => rfl

/-- A row's opcode and an instruction's operand bytes decode to the instruction, whatever follows them. -/
theorem decodeBytes_of_row {m : OpcodeMap} (hm : m.Lawful) {r : OpcodeRow} (hr : r ∈ m) {i : Instr}
    (hf : r.form = (i.mnemonic, i.mode)) (rest : List Byte) :
    decodeBytes m (r.opcode :: i.operandBytes ++ rest) = .ok (i, rest) := by
  have hlen := operandBytes_length i
  have hd : decode m r.opcode ((i.operandBytes ++ rest).headD 0) ((i.operandBytes ++ rest).tail.headD 0) = .ok i := by
    refine decode_of_row hm hr hf (fun h1 => headD_append h1 rest) fun h2 => ?_
    rw [List.tail_append_of_ne_nil (List.ne_nil_of_length_pos (by omega))]
    exact headD_append (by rw [List.length_tail]; omega) rest
  have hfit : ¬ (i.operandBytes ++ rest).length + 1 < i.length := by
    rw [List.length_append]
    omega
  have hdrop : (i.operandBytes ++ rest).drop (i.length - 1) = rest := by
    rw [← hlen, Nat.add_sub_cancel, List.drop_left]
  simp only [List.cons_append, decodeBytes, hd, hfit, if_false, hdrop]

/-- A row of a well-formed map decodes from its own opcode, whatever the operand bytes. -/
theorem decode_row {m : OpcodeMap} (hm : m.Lawful) {r : OpcodeRow} (hr : r ∈ m) (b1 b2 : Byte) :
    ∃ i, decode m r.opcode b1 b2 = .ok i ∧ i.mnemonic = r.mnemonic ∧ i.mode = r.mode ∧
      i.operandBytes = [b1, b2].take (r.mode.length - 1) := by
  obtain ⟨i, hi⟩ := Option.isSome_iff_exists.mp (ofForm_isSome (hm.rows r hr) b1 b2)
  exact ⟨i, by simp only [decode, hm.rowOf_opcode hr, hi], ofForm_some hi⟩

/-- Under a well-formed map only an opcode without a row is unrecognised (30_encoding.md R65). -/
theorem decode_eq_unrecognised {m : OpcodeMap} (hm : m.Lawful) {op b1 b2 : Byte} :
    decode m op b1 b2 = .error (.unrecognised op) ↔ m.rowOf op = none := by
  refine ⟨fun h => ?_, decode_unrecognised b1 b2⟩
  cases hr : m.rowOf op with
  | none => rfl
  | some r =>
    obtain ⟨hmem, rfl⟩ := OpcodeMap.rowOf_mem hr
    obtain ⟨i, hi, -⟩ := decode_row hm hmem b1 b2
    rw [hi] at h
    cases h

/-- A word is its low byte plus 256 times its high byte (20_memory.md R43). -/
theorem toNat_eq_lowByte_add_highByte (w : Word) : w.toNat = (lowByte w).toNat + 256 * (highByte w).toNat := by
  have := w.isLt
  simp only [lowByte, highByte, BitVec.extractLsb'_toNat, Nat.shiftRight_eq_div_pow]
  omega

-- The statements

/-- Settles O11: the row of the instruction's form encodes it, and decodes from its own opcode. -/
theorem decodeInvertsEncode : Obligations.DecodeInvertsEncode := by
  intro m hwf i rest
  have hm := OpcodeMap.lawful hwf
  obtain ⟨r, hr, hf⟩ := hm.row_exists i
  exact ⟨_, encode_of_row hm hr hf, operandBytes_length i, decodeBytes_of_row hm hr hf rest⟩

/-- Settles O12: the row that was decoded is the row the encoder takes, and the operand bytes are the fetched ones. -/
theorem encodeInvertsDecode : Obligations.EncodeInvertsDecode := by
  intro m hwf op b1 b2 i h
  obtain ⟨r, hr, -, rfl, hmn, hmode, hbytes⟩ := decode_ok h
  have hf : r.form = (i.mnemonic, i.mode) := by rw [hmn, hmode]; rfl
  rw [encode_of_row (OpcodeMap.lawful hwf) hr hf, hbytes, ← operandBytes_length i, List.take_succ_cons,
    Nat.add_sub_cancel]

/-- Settles O10: under the default map exactly the listed bytes have no row. -/
theorem unrecognisedOpcodes : Obligations.UnrecognisedOpcodes := by
  intro op b1 b2
  rw [decode_eq_unrecognised (OpcodeMap.lawful defaultOpcodeMap_wf)]
  revert op
  decide +kernel

/-- Settles O8: each row is the one the default map's lookup finds. -/
theorem opcodeBytes : Obligations.OpcodeBytes := by
  refine ⟨toNat_eq_lowByte_add_highByte, ?_⟩
  and_intros <;> intros <;> exact rfl

/-- Settles O9: the decoder run on each word. -/
theorem sampleWordsDecode : Obligations.SampleWordsDecode := by
  and_intros <;> exact rfl

end Sys2Proof
end

section
/-! PROOFS. The statements of the assembler (30_encoding.md Part B): how a line, a pass and an assembly end, the bytes
that lines write and when they are refused, forward references, branches to labels, and silent lines. -/

namespace Sys2Proof.Machine

-- What one line can come to (30_encoding.md R95, R98)

/-- After a stop a line is ignored. -/
theorem runLine_of_stopped {p : Pass} (h : p.stopped = true) (n : Nat) (text : Text) : runLine n text p = .ok p := by
  rw [runLine, if_pos h]

theorem runLine_of_syntaxError {p : Pass} {text : Text} {k : SyntaxKind} (hs : p.stopped = false)
    (h : parseLine p.state.params.opcodeMap (cleanLine text) = .error k) (n : Nat) :
    runLine n text p = .ok (p.reportSyntax k n) := by
  simp [runLine, hs, h]

theorem runLine_of_invalidAddress {p : Pass} {text : Text} {a : Action} (hs : p.stopped = false)
    (h : parseLine p.state.params.opcodeMap (cleanLine text) = .ok a) (ha : applyAction a p.state = none) (n : Nat) :
    runLine n text p = .error (p.reports ++ [⟨.invalidAddress, n⟩]) := by
  simp [runLine, hs, h, ha]

-- The lines of a pass (30_encoding.md R70)

theorem runLines_of_stopped {p : Pass} (h : p.stopped = true) (n : Nat) (ts : List Text) : runLines n ts p = .ok p := by
  induction ts generalizing n with
  | nil => rfl
  | cons t ts ih => simp only [runLines, runLine_of_stopped h, ih]

/-- Lines that pass hand the pass on to the lines after them. -/
theorem runLines_append {n : Nat} {done : List Text} {p q : Pass} (h : runLines n done p = .ok q) (ts : List Text) :
    runLines n (done ++ ts) p = runLines (n + done.length) ts q := by
  induction done generalizing n p with
  | nil =>
    cases h
    rfl
  | cons t done ih =>
    simp only [List.cons_append, runLines, List.length_cons] at h ⊢
    cases hl : runLine n t p with
    | error rs => simp [hl] at h
    | ok p' =>
      simp only [hl] at h ⊢
      rw [ih h, Nat.add_right_comm, Nat.add_assoc]

/-- Nothing but SyntaxErrors is reported. -/
def OnlySyntaxErrors (rs : List Report) : Prop := ∀ r ∈ rs, ∃ k, r.kind = .syntaxError k

theorem OnlySyntaxErrors.append {rs : List Report} (h : OnlySyntaxErrors rs) (k : SyntaxKind) (n : Nat) :
    OnlySyntaxErrors (rs ++ [⟨.syntaxError k, n⟩]) := by
  simp only [OnlySyntaxErrors, List.mem_append, List.mem_singleton]
  rintro r (hr | rfl)
  · exact h r hr
  · exact ⟨k, rfl⟩

/-- What a pass keeps true of itself: the state is the starting one but for memory and the assembler's own state, and
nothing but SyntaxErrors is reported (30_encoding.md R98, R100). -/
structure Pass.Sound (params : Params) (p : Pass) : Prop where
  core    : KeepsCore (State.resetWith params) p.state
  reports : OnlySyntaxErrors p.reports

theorem Pass.start_sound (params : Params) : (Pass.start params).Sound params :=
  ⟨.refl _, fun _ hr => nomatch hr⟩

theorem runLines_sound {params : Params} {ts : List Text} {n : Nat} {p q : Pass} (hp : p.Sound params)
    (h : runLines n ts p = .ok q) : q.Sound params :=
  runLines_invariant (P := Pass.Sound params)
    (fun _ k n hp => ⟨hp.core, hp.reports.append k n⟩)
    (fun _ _ _ hp ha => ⟨hp.core.trans (applyAction_keeps ha), hp.reports⟩) ts n p q hp h

-- The two endings of an assembly (30_encoding.md R100)

theorem assemble_eq_completed {src : Text} {s t : State} {rs : List Report} (h : assemble src s = .completed t rs) :
    ∃ p, runLines 1 (linesOf src) (Pass.start s.params) = .ok p ∧ t = p.state.setAsm AsmState.start ∧
      rs = p.reports := by
  unfold assemble at h
  split at h
  · cases h
  next p hp =>
    cases h
    exact ⟨p, hp, rfl, rfl⟩

theorem assemble_eq_refused {src : Text} {s : State} {f : Fault} {rs : List Report} :
    assemble src s = .refused f rs ↔
      runLines 1 (linesOf src) (Pass.start s.params) = .error rs ∧ f = .invalidAddress := by
  unfold assemble
  split
  next es he => simp [he, eq_comm, and_comm]
  next p hp => simp [hp]

-- When an emission is refused (30_encoding.md R95)

/-- A run of bytes that leaves memory is InvalidAddress. -/
theorem emitBytes_outside {vs : List Byte} {a : Nat} (hne : vs ≠ []) (h : Config.memorySize < a + vs.length)
    (s : State) : emitBytes a vs s = none := by
  induction vs generalizing a s with
  | nil => exact absurd rfl hne
  | cons v vs ih =>
    unfold emitBytes
    cases hb : emitByte a v s with
    | none => rfl
    | some t =>
      obtain ⟨ha, -⟩ := emitByte_some.mp hb
      rw [List.length_cons] at h
      refine ih ?_ (by omega) t
      rintro rfl
      simp only [List.length_nil] at h
      omega

/-- An instruction line is refused exactly when it does not fit below the end of memory. -/
theorem emitInstr_eq_none {row : OpcodeRow} {o : Operand} (h : operandMode row.mnemonic o = some row.mode) (s : State) :
    emitInstr row o s = none ↔ Config.memorySize < s.asm.cursor + row.mode.length := by
  by_cases hin : s.asm.cursor + row.mode.length ≤ Config.memorySize
  · obtain ⟨u, -, hu⟩ := emitInstr_inside row o s hin h
    simp [hu, hin]
  · simp only [emitInstr, hin, if_false, true_iff]
    omega

theorem defineLabel_of_defined {s : State} {name : Text} {t : Word} (h : s.asm.addressOf name = some t) :
    defineLabel name s = some s := by
  simp [defineLabel, h]

theorem defineLabel_outside {s : State} {name : Text} (h : s.asm.addressOf name = none)
    (hc : Config.memorySize ≤ s.asm.cursor) : defineLabel name s = none := by
  simp [defineLabel, h, Nat.not_lt.mpr hc]

-- The bytes of the data directives (30_encoding.md R76, R77)

theorem lowByte_ofNat (v : Nat) : (lowByte (BitVec.ofNat 16 v)).toNat = v % 256 := by
  simp [lowByte]

theorem highByte_ofNat {v : Nat} (h : v < 65536) : (highByte (BitVec.ofNat 16 v)).toNat = v / 256 := by
  simp [highByte, Nat.shiftRight_eq_div_pow]
  omega

theorem wordData_cons (v : Nat) (vs : List Nat) :
    wordData (v :: vs) = lowByte (BitVec.ofNat 16 v) :: highByte (BitVec.ofNat 16 v) :: wordData vs := rfl

theorem wordData_length (vs : List Nat) : (wordData vs).length = 2 * vs.length := by
  induction vs with
  | nil => rfl
  | cons v vs ih =>
    rw [wordData_cons, List.length_cons, List.length_cons, List.length_cons, ih]
    omega

/-- The two bytes of the word at an index. -/
theorem wordData_getElem? {vs : List Nat} {k : Nat} (h : k < vs.length) :
    (wordData vs)[2 * k]? = some (lowByte (BitVec.ofNat 16 vs[k])) ∧
      (wordData vs)[2 * k + 1]? = some (highByte (BitVec.ofNat 16 vs[k])) := by
  induction vs generalizing k with
  | nil => cases h
  | cons v vs ih =>
    cases k with
    | zero => exact ⟨rfl, rfl⟩
    | succ k => exact ih (Nat.lt_of_succ_lt_succ h)

/-- Inside memory a data line writes its bytes in order at the cursor, nothing else, and moves the cursor past them. -/
theorem emitData_inside {s : State} {bytes : List Byte} (h : s.asm.cursor + bytes.length ≤ Config.memorySize) :
    ∃ t, emitData bytes s = some t ∧ t.asm = { s.asm with cursor := s.asm.cursor + bytes.length } ∧
      ∀ b, t.mem.read b = if s.asm.cursor ≤ b ∧ b < s.asm.cursor + bytes.length
        then bytes.getD (b - s.asm.cursor) 0 else s.mem.read b := by
  obtain ⟨u, hu⟩ := emitBytes_inside h s
  refine ⟨u.setAsm { s.asm with cursor := s.asm.cursor + bytes.length }, ?_, rfl, fun b => emitBytes_read hu b⟩
  simp only [emitData, hu]

theorem emitData_outside {s : State} {bytes : List Byte} (hne : bytes ≠ [])
    (h : Config.memorySize < s.asm.cursor + bytes.length) : emitData bytes s = none := by
  simp only [emitData, emitBytes_outside hne h]

-- What an instruction line writes (30_encoding.md R91)

/-- Two bytes cut to the length of a shorter list that they agree with are that list. -/
theorem take_pair_eq {b1 b2 : Byte} {bs : List Byte} (hlen : bs.length ≤ 2) (h1 : 0 < bs.length → b1 = bs.getD 0 0)
    (h2 : 1 < bs.length → b2 = bs.getD 1 0) : [b1, b2].take bs.length = bs := by
  match bs with
  | [] => rfl
  | [x] => rw [h1 (by simp)]; rfl
  | [x, y] => rw [h1 (by simp), h2 (by simp)]; rfl
  | _ :: _ :: _ :: _ => simp at hlen

/-- A byte of an emitted run is what a fetch at its address reads. -/
theorem fetchedByte_emitBytes {a k : Nat} {vs : List Byte} {s t : State} (h : emitBytes a vs s = some t)
    (hk : k < vs.length) (hin : a + k < 65536) : fetchedByte t (a + k) = vs.getD k 0 := by
  rw [fetchedByte, if_pos hin, emitBytes_read h, if_pos (by omega), Nat.add_sub_cancel_left]

-- Forward references (30_encoding.md R92 to R94)

theorem AsmState.addressOf_define {m : AsmState} {name : Text} (h : m.addressOf name = none) (t : Word) :
    (m.define name t).addressOf name = some t := by
  unfold AsmState.addressOf at h
  simp [AsmState.addressOf, AsmState.define, List.lookup_append, h]

/-- Resolving the patch that a forward reference registers emits the operand bytes of a backward reference. -/
theorem resolveAll_newPatches {m : AsmState} {name : Text} {mode : Mode} (h : m.addressOf name = none)
    (hmode : mode = .rel ∨ mode = .abs) (p : Nat) (t : Word) (s : State) :
    resolveAll t ((newPatches m mode p (.label name)).map (·.2)) s =
      emitBytes (p + 1) (emittedOperand (m.define name t) mode p (.label name)) s := by
  have hd := AsmState.addressOf_define h t
  rcases hmode with rfl | rfl
  · simp only [newPatches, emittedOperand, h, hd]
    rfl
  · simp only [newPatches, emittedOperand, h, hd, List.map_cons, List.map_nil, resolveAll, resolve, emitBytes]
    cases emitByte (p + 1) (lowByte t) s <;> rfl

/-- Emitting a run again over its placeholder leaves the cells that emitting it in the first place leaves. -/
theorem read_of_emitBytes_over {a : Nat} {v : Byte} {ws vs : List Byte} {s s' u u' t w : State}
    (hu : emitBytes a (v :: ws) s = some u) (ht : emitBytes (a + 1) vs u' = some t)
    (hw : emitBytes a (v :: vs) s' = some w) (hlen : ws.length = vs.length) (hu' : u'.mem = u.mem)
    (hs' : s'.mem = s.mem) (b : Nat) : t.mem.read b = w.mem.read b := by
  rw [emitBytes_read ht, hu', emitBytes_read hu, emitBytes_read hw, hs']
  simp only [List.length_cons, hlen]
  by_cases hb : a + 1 ≤ b ∧ b < a + 1 + vs.length
  · rw [if_pos hb, if_pos (by omega), show b - a = b - (a + 1) + 1 by omega, List.getD_cons_succ]
  · rw [if_neg hb]
    by_cases hba : b = a
    · simp [hba]
    · rw [if_neg (by omega), if_neg (by omega)]

-- Branches (30_encoding.md R92; 45_branch.md R230)

theorem relativeByte_toInt {target origin : Nat} (hlo : -128 ≤ (target : Int) - origin)
    (hhi : (target : Int) - origin ≤ 127) : (relativeByte target origin).toInt = target - origin :=
  BitVec.toInt_ofInt_eq_self (by decide) hlo (Int.lt_of_le_of_lt hhi (by decide))

-- Silent lines (30_encoding.md R78, R80, R90, R97)

/-- An unknown directive asks for nothing. -/
theorem parseDirective_unknown {line : Text} (h : firstWord line ∉ [".ORG".toList, ".BYTE".toList, ".WORD".toList]) :
    parseDirective line = .ok .nothing := by
  simp only [List.mem_cons, List.not_mem_nil, or_false, not_or] at h
  obtain ⟨horg, hbyte, hword⟩ := h
  simp only [parseDirective, horg, hbyte, hword, if_false]

theorem parseInstr_unknown {line : Text} {o : Operand} (hc : classify (afterFirstWord line) = .ok o)
    (hm : mnemonicOf (firstWord line) = none) (m : OpcodeMap) : parseInstr m line = .ok .nothing := by
  simp only [parseInstr, hc, hm]

/-- A pair without a row asks for nothing. -/
theorem parseInstr_noRow {m : OpcodeMap} {line : Text} {o : Operand} {mn : Mnemonic} {k : Mode}
    (hc : classify (afterFirstWord line) = .ok o) (hm : mnemonicOf (firstWord line) = some mn)
    (hk : operandMode mn o = some k) (hr : operandRow m mn k o = none) : parseInstr m line = .ok .nothing := by
  simp only [parseInstr, hc, hm, hk, hr]

theorem operandRow_of_absentForm {mn : Mnemonic} {o : Operand} (h : absentForm mn o = true) (m : OpcodeMap) (k : Mode) :
    operandRow m mn k o = none := by
  simp [operandRow, h]

theorem operandRow_of_rowFor {m : OpcodeMap} {mn : Mnemonic} {k : Mode} (h : m.rowFor mn k = none) (o : Operand) :
    operandRow m mn k o = none := by
  simp [operandRow, h]

theorem accumulatorForm_eq_false {mn : Mnemonic} (h : mn ∉ [.asl, .lsr, .rol, .ror]) : accumulatorForm mn = false := by
  cases mn <;> simp at h <;> rfl

/-- A text that opens with a parenthesis is of the class LABEL. -/
theorem classify_paren (rest : Text) : classify ('(' :: rest) = .ok (.label ('(' :: rest)) := by
  have hd : decimalLiteral ('(' :: rest) = none := by simp [decimalLiteral, digitsOf, decimalDigit]
  simp [classify, signedDecimal, hd]

/-- A line with the text of an excluded indirect form asks for nothing. -/
theorem parseInstr_excluded {line t : Text} {mn : Mnemonic} {f : IndirectForm} (ht : afterFirstWord line = t)
    (hm : mnemonicOf (firstWord line) = some mn) (hmn : mn = .jmp ∨ mn = .jsr) (hf : f.Spells t)
    (hx : excludedForm mn f = true) (m : OpcodeMap) : parseInstr m line = .ok .nothing := by
  have hc : classify t = .ok (.label t) := by
    cases f with
    | plain => obtain ⟨-, -, rfl⟩ := hf; exact classify_paren _
    | byX => obtain ⟨-, -, _, -, -, rfl⟩ := hf; exact classify_paren _
    | long => obtain ⟨-, -, rfl⟩ := hf; exact classify_bracket _
  have ha : absentForm mn (.label t) = true := by simp [absentForm, indirectForm_of_spells hf, hx]
  have hk : operandMode mn (.label t) = some .abs := by rcases hmn with rfl | rfl <;> rfl
  exact parseInstr_noRow (ht ▸ hc) hm hk (operandRow_of_absentForm ha m .abs)

-- The statements

/-- Settles O48: the pass is sound from its start on, and only an InvalidAddress ends it. -/
theorem assemblyLeavesResetState : Obligations.AssemblyLeavesResetState := by
  constructor
  · intro src s t rs h
    obtain ⟨p, hp, rfl, rfl⟩ := assemble_eq_completed h
    obtain ⟨hcore, hreports⟩ := runLines_sound (Pass.start_sound s.params) hp
    exact ⟨congrArg (State.setAsm · AsmState.start) hcore.eq, hcore.memWf Memory.empty_wf, hreports⟩
  · intro src s f rs h
    obtain ⟨hp, rfl⟩ := assemble_eq_refused.mp h
    have hstart := (Pass.start_sound s.params).reports
    exact ⟨rfl, runLines_error (P := OnlySyntaxErrors) (fun _ k n h => h.append k n) _ _ _ _ hstart hp⟩

/-- Settles O50: the line's report is `Pass.reportSyntax`, and a stopped pass ignores its lines. -/
theorem syntaxErrorLineWritesNothing : Obligations.SyntaxErrorLineWritesNothing :=
  ⟨fun n _ p k hs h => ⟨p.reportSyntax k n, runLine_of_syntaxError hs h n, rfl, rfl, decide_eq_true_iff⟩,
    fun n ts _ h => runLines_of_stopped h n ts⟩

/-- Settles O52: the opcode byte finds the row again, and the fetched operand bytes are the emitted ones. -/
theorem emittedInstructionDecodes : Obligations.EmittedInstructionDecodes := by
  intro s row o hwf hrow ho hin
  have hm := OpcodeMap.lawful hwf
  obtain ⟨u, hu, hemit⟩ := emitInstr_inside row o s hin ho
  have hlen := emittedOperand_length s.asm row s.asm.cursor o ho
  set bs := emittedOperand s.asm row.mode s.asm.cursor o
  have hop : u.mem.read s.asm.cursor = row.opcode := by
    rw [emitBytes_read hu, if_pos (by rw [List.length_cons]; omega), Nat.sub_self, List.getD_cons_zero]
  have hfetch (k : Nat) (hk : k < bs.length) : fetchedByte u (s.asm.cursor + (k + 1)) = bs.getD k 0 := by
    rw [fetchedByte_emitBytes hu (Nat.succ_lt_succ hk) (by omega), List.getD_cons_succ]
  obtain ⟨i, hi, hmn, hmode, hbytes⟩ :=
    decode_row hm hrow (fetchedByte u (s.asm.cursor + 1)) (fetchedByte u (s.asm.cursor + 2))
  have hbs : i.operandBytes = bs := by
    have := row.mode.length_le
    rw [hbytes, ← hlen, Nat.add_sub_cancel]
    exact take_pair_eq (by omega) (hfetch 0) (hfetch 1)
  have hilen : i.length = row.mode.length := congrArg Mode.length hmode
  refine ⟨_, i, hemit, hop ▸ hi, hmn, hmode, hbs, congrArg (s.asm.cursor + ·) hilen.symm, fun b hb => ?_⟩
  rw [State.setAsm_mem, emitBytes_read hu, if_neg (by rw [List.length_cons]; omega)]

/-- Settles O53: an emitted run is read back byte by byte, and a word's two bytes are its remainder and its quotient by
256. -/
theorem dataDirectiveBytes : Obligations.DataDirectiveBytes := by
  refine ⟨fun s bytes h => ?_, fun s bytes hne h => emitData_outside hne h, fun vs hvs => ?_, fun vs hvs => ?_⟩
  · obtain ⟨t, ht, hasm, hread⟩ := emitData_inside (s := s) h
    refine ⟨t, ht, hasm, fun k hk => ?_, fun b hb => ?_⟩
    · rw [hread, if_pos (by omega), Nat.add_sub_cancel_left, List.getD_eq_getElem _ _ hk]
    · rw [hread, if_neg (by omega)]
  · refine ⟨List.length_map _, fun k hk => ?_⟩
    have hv := hvs vs[k] (List.getElem_mem hk)
    simp [byteData, hk, Nat.mod_eq_of_lt hv]
  · refine ⟨wordData_length vs, fun k hk => ?_⟩
    obtain ⟨hlo, hhi⟩ := wordData_getElem? hk
    rw [hlo, hhi]
    exact ⟨congrArg some (lowByte_ofNat _), congrArg some (highByte_ofNat (hvs _ (List.getElem_mem hk)))⟩

/-- Settles O54: `emitInstr_eq_none` says when an instruction line is refused, and the first line that ends in an error
ends the assembly, since the lines before it hand their pass on. -/
theorem addressesAboveMemoryAreRefused : Obligations.AddressesAboveMemoryAreRefused := by
  refine ⟨fun s row o h => ?_, fun s name h hc => defineLabel_outside h hc,
    fun n text p a hs hp ha => runLine_of_invalidAddress hs hp ha n,
    fun src s done rest text q rs hsrc hdone hline => ?_⟩
  · have := row.mode.length_pos
    rw [emitInstr_eq_none h, Config.memorySize]
    omega
  · refine assemble_eq_refused.mpr ⟨?_, rfl⟩
    rw [hsrc, runLines_append hdone, runLines, hline]

/-- Settles O55: resolving the patch emits the backward reference's operand bytes over the placeholder. -/
theorem forwardReferenceBytesMatchBackward : Obligations.ForwardReferenceBytesMatchBackward := by
  intro s row name t hwf hundef hmode hin
  have hlen (m : AsmState) := emittedOperand_length m row s.asm.cursor (.label name) hmode
  obtain ⟨u, hu, hemit⟩ := emitInstr_inside row (.label name) s hin hmode
  obtain ⟨w, hw, hemit'⟩ := emitInstr_inside row (.label name) (s.setAsm (s.asm.define name t)) hin hmode
  obtain ⟨v, hv⟩ := emitBytes_inside (vs := emittedOperand (s.asm.define name t) row.mode s.asm.cursor (.label name))
    (a := s.asm.cursor + 1) (by rw [Nat.add_assoc, Nat.add_comm 1, hlen]; exact hin) (u.setAsm _)
  refine ⟨_, v, _, hemit, rfl, (resolveAll_newPatches hundef (labelMode_cases hmode) _ t _).trans hv, hemit', ?_⟩
  obtain ⟨hukeeps, -⟩ := emitBytes_keeps hu
  obtain ⟨hvkeeps, -⟩ := emitBytes_keeps hv
  obtain ⟨hwkeeps, -⟩ := emitBytes_keeps hw
  have hread := read_of_emitBytes_over hu hv hw (Nat.succ.inj ((hlen _).trans (hlen _).symm)) rfl rfl
  exact Memory.ext_read (hvkeeps.memWf (hukeeps.memWf hwf)) (hwkeeps.memWf hwf) hread

/-- Settles O56: a branch of the table goes to the next instruction plus its offset, which is the label. -/
theorem assembledBranchLandsOnLabel : Obligations.AssembledBranchLandsOnLabel := by
  intro p hp s t hc hlo hhi
  have hoff := relativeByte_toInt (target := t.toNat) (origin := s.pc.toNat + 2) hlo hhi
  have htarget : (s.pc.toNat : Int) + 2 + signedOffset (relativeByte t.toNat (s.pc.toNat + 2)) = t.toNat := by
    rw [signedOffset_eq_toInt, hoff]
    push_cast
    ring
  rw [exec_branchTable s _ p hp, hc, branch_taken, htarget, State.finish_nat, pcAfter_toNat]
  rfl

/-- Settles O51: each line names no directive, no mnemonic or no row; `A` and the excluded indirect texts find none
because their form is absent. -/
theorem silentLinesChangeNothing : Obligations.SilentLinesChangeNothing := by
  refine ⟨fun line h => parseDirective_unknown h, fun m line o hc hm => parseInstr_unknown hc hm m,
    fun m line o mn k hc hm hk hr => parseInstr_noRow hc hm hk (operandRow_of_rowFor hr o), ?accumulator, ?indirect,
    fun _ => rfl, fun name s t h => defineLabel_of_defined h⟩
  case accumulator =>
    intro m line mn ht hm hmn
    have ha : absentForm mn .acc = true := by simp [absentForm, accumulatorForm_eq_false hmn]
    exact parseInstr_noRow (o := .acc) (ht ▸ rfl) hm rfl (operandRow_of_absentForm ha m .null)
  case indirect =>
    rintro m line address mn hm hc ha (⟨hmn, ht | ht⟩ | ⟨rfl, ht⟩)
    · exact parseInstr_excluded (f := .plain address) ht hm hmn ⟨hc, ha, rfl⟩ (by rcases hmn with rfl | rfl <;> rfl) m
    · exact parseInstr_excluded (f := .byX address) ht hm hmn ⟨hc, ha, ['X'], by decide, by decide, rfl⟩
        (by rcases hmn with rfl | rfl <;> rfl) m
    · exact parseInstr_excluded (f := .long address) ht hm (.inl rfl) ⟨hc, ha, rfl⟩ rfl m

/-- Settles O57: the assembler run on each source, then its image read. -/
theorem assemblerExamples : Obligations.AssemblerExamples := by
  and_intros <;> exact ⟨_, by rfl, by decide +kernel⟩

end Sys2Proof.Machine
end

section
/-! PROOFS. The statements of the step (40_step_cycle.md): what a step runs, where it can fault, that it always answers,
the finalisation of the PC, SetNZ, and the step from an unwritten reset vector. -/

namespace Sys2Proof.Machine

-- The step by what stands at the address the handshake leads to (40_step_cycle.md R131 to R133, R136)

section Handshake
variable {s : State} {p : Word} (hp : s.handshake = s.setPc p)
include hp

theorem step_of_instrAt {i : Instr} (h : instrAt s p = .ok i) : step s = exec i (s.setPc p) := by
  have hd : (s.setPc p).decodeAtPc = .ok i := h
  rw [step, hp, hd]

theorem step_of_unrecognised {e : DecodeError} (h : instrAt s p = .error e) :
    step s = .next (s.setPc (pcAfter (p.toNat + s.params.unrecognisedOpcodeAdvance.val))) := by
  have hd : (s.setPc p).decodeAtPc = .error e := h
  rw [step, hp, hd]
  exact (s.setPc p).skipUnrecognised_eq

end Handshake

-- Where an instruction faults, and that it answers otherwise (40_step_cycle.md R135; 45_branch.md R230)

/-- A taken branch is the finish at its target; every other fault is excluded by `exec_fault`. -/
theorem exec_fault_iff {i : Instr} {s : State} {f : Fault} :
    exec i s = .fault f ↔ f = .pcOutOfRange ∧ s.params.pcNegativePolicy = .fault ∧
      ∃ off, takenBranch s.flags off i ∧ (s.pc.toNat : Int) + 2 + off.toInt < 0 := by
  simp only [← signedOffset_eq_toInt]
  refine ⟨exec_fault, ?_⟩
  rintro ⟨rfl, hp, off, hb, hn⟩
  rw [exec_takenBranch hb, branch_taken, State.finish_negative s hn, hp]

/-- No instruction is refused, and none raises InvalidAddress. -/
theorem exec_next_or_fault (i : Instr) (s : State) : (∃ t, exec i s = .next t) ∨ exec i s = .fault .pcOutOfRange := by
  cases h : exec i s with
  | next t => exact .inl ⟨t, rfl⟩
  | fault f => exact .inr (congrArg _ (exec_fault_iff.mp h).1)
  | refused r => exact absurd h (exec_not_refused i s r)

theorem exec_completes {i : Instr} {s : State} (h : exec i s ≠ .fault .pcOutOfRange) : ∃ t, exec i s = .next t :=
  (exec_next_or_fault i s).resolve_right h

-- Numbers as words and bytes

theorem ofInt_eq_ofNat_emod (n : Int) : BitVec.ofInt 16 n = BitVec.ofNat 16 (n % 65536).toNat := by
  apply BitVec.eq_of_toNat_eq
  rw [BitVec.toNat_ofInt, BitVec.toNat_ofNat]
  omega

/-- Bit 7 of a byte is set exactly above 0x7F. -/
theorem getLsbD_seven (v : Byte) : v.getLsbD 7 = decide (0x7F < v.toNat) :=
  (BitVec.msb_eq_getLsbD_last v).symm.trans (BitVec.msb_eq_decide v)

-- The statements

/-- Settles O16: an instruction answers or faults, and an unrecognised opcode answers. -/
theorem stepIsNeverRefused : Obligations.StepIsNeverRefused := by
  intro s
  cases hd : instrAt s s.handshake.pc with
  | ok i =>
    rw [step_of_instrAt s.handshake_eq_setPc hd]
    exact exec_next_or_fault i _
  | error e => exact .inl ⟨_, step_of_unrecognised s.handshake_eq_setPc hd⟩

/-- Settles O17: by `exec_fault_iff` at the state after the handshake, which moves the PC alone; an unrecognised opcode
answers, and is no branch. -/
theorem stepFaultsExactlyOnBranchBelowZero : Obligations.StepFaultsExactlyOnBranchBelowZero := by
  intro s f
  cases hd : instrAt s s.handshake.pc with
  | ok i =>
    rw [step_of_instrAt s.handshake_eq_setPc hd, exec_fault_iff]
    simp
  | error e => simp [step_of_unrecognised s.handshake_eq_setPc hd]

/-- Settles O44: in both clauses the one fault of `exec_fault_iff` is excluded. -/
theorem everyInstructionCompletes : Obligations.EveryInstructionCompletes := by
  refine ⟨fun i s hin => exec_completes fun hf => ?_, fun i s hp => exec_completes fun hf => ?_⟩
  · obtain ⟨-, -, off, hb, hn⟩ := exec_fault_iff.mp hf
    exact absurd (hin off hb) (Int.not_le.mpr hn)
  · obtain ⟨-, hpol, -⟩ := exec_fault_iff.mp hf
    exact hp hpol

/-- Settles O7: the equation is SetNZ itself, and N is bit 7. -/
theorem zeroAndNegative : Obligations.ZeroAndNegative :=
  fun _ v => ⟨rfl, (getLsbD_seven v).symm⟩

/-- Settles O13: the handshake leaves another PC alone, and loads the vector's word at the sentinel. -/
theorem stepRunsDecodedInstruction : Obligations.StepRunsDecodedInstruction :=
  ⟨fun s _ hpc => step_of_instrAt (p := s.pc) (State.handshake_of_ne hpc),
    fun _ _ hpc => step_of_instrAt (State.handshake_of_sentinel hpc)⟩

/-- Settles O14: the two addresses of O13; an advance of 0 leaves the PC itself. -/
theorem unrecognisedOpcodeStep : Obligations.UnrecognisedOpcodeStep := by
  refine ⟨fun s _ hpc => step_of_unrecognised (p := s.pc) (State.handshake_of_ne hpc),
    fun _ _ hpc => step_of_unrecognised (State.handshake_of_sentinel hpc), fun s e hpc he h0 => ?_⟩
  have h := step_of_unrecognised (p := s.pc) (State.handshake_of_ne hpc) he
  rw [h0] at h
  exact h.trans (congrArg (Host.Outcome.next <| s.setPc ·) (pcAfter_toNat s.pc))

/-- Settles O15: the finish above 0, and each policy below 0. -/
theorem pcFinalisation : Obligations.PcFinalisation := by
  refine fun s npc => ⟨fun h => ?_, fun h0 h => ?_, fun h hp => ?_, fun h hp => ?_, fun h hp => ?_⟩
  · rw [s.finish_nonneg (by omega), pcAfter_past (by omega)]
    rfl
  · rw [s.finish_nonneg h0, pcAfter_inside (by omega)]
    rfl
  · rw [s.finish_negative h, hp]
  · rw [s.finish_negative h, hp]
    rfl
  · rw [s.finish_negative h, hp, ofInt_eq_ofNat_emod]
    rfl

/-- Settles O47: 0xFF, which the unwritten memory holds everywhere, is unrecognised, so O14 says both steps. -/
theorem unwrittenVectorHalts : Obligations.UnwrittenVectorHalts := by
  obtain ⟨-, atVector, halts⟩ := unrecognisedOpcodeStep
  exact ⟨atVector State.reset (.unrecognised 0xFF) rfl (by decide),
    (State.halted_iff _).mpr (halts _ (.unrecognised 0xFF) (by decide) (by decide) rfl)⟩

end Sys2Proof.Machine
end

section
/-! PROOFS. The statements of loads, transfers and stores (41_load_transfer_store.md): the full next state of each row, as
an instance of its class. -/

namespace Sys2Proof.Machine

/-- Settles O26: each row is the store class at its register, and the cells are read back by `State.memRead_memWrite`. -/
theorem storeResults : Obligations.StoreResults :=
  ⟨fun s ea => store_eq .a ea s, fun s ea => store_eq .x ea s, fun s ea => store_eq .y ea s, State.memRead_memWrite⟩

/-- Settles O25: each row is the load class at its destination, or the transfer class at its two registers. -/
theorem loadAndTransferResults : Obligations.LoadAndTransferResults :=
  ⟨fun s v => load_eq .a v 2 s, fun s ea => load_eq .a (s.absOperand ea) 3 s,
    fun s v => load_eq .x v 2 s, fun s ea => load_eq .x (s.absOperand ea) 3 s,
    fun s v => load_eq .y v 2 s, fun s ea => load_eq .y (s.absOperand ea) 3 s,
    transfer_eq .a .x, transfer_eq .x .a, transfer_eq .a .y, transfer_eq .y .a, transfer_eq .s .x, transfer_eq .x .s⟩

end Sys2Proof.Machine
end

section
/-! PROOFS. The statements of ADC and SBC (42_arithmetic.md): the machine's sum, difference and flags are those of
`adcState` and `sbcState`, and each row is an instance of its class. -/

namespace Sys2Proof.Machine

/-- SetNZ, a carry and the overflow heuristic together are `arithmeticFlags` (42_arithmetic.md R181). -/
theorem setNZ_carry_overflow_eq (f : Flags) (m r : Byte) (carry : Bool) :
    { f.setNZ r with c := carry, v := overflowHeuristic (decimalOperand f.d m) r } =
      arithmeticFlags f (decimalValue f.d m) r carry := by
  rw [overflowHeuristic_eq, decimalOperand_toNat]
  rfl

theorem adcSum_eq (f : Flags) (acc m : Byte) : adcSum f acc m = acc.toNat + decimalValue f.d m + f.c.toNat := by
  rw [adcSum, decimalOperand_toNat]

theorem sbcDifference_eq (f : Flags) (acc m : Byte) :
    sbcDifference f acc m = (acc.toNat : Int) - (decimalValue f.d m : Int) - (if f.c then 0 else 1) := by
  rw [sbcDifference, decimalOperand_toNat]
  cases f.c <;> rfl

/-- ADC writes A and the flags as `adcState` does (42_arithmetic.md R182). -/
theorem setReg_setFlags_adc (m : Byte) (s : State) :
    (s.setReg .a (adcResult s.flags s.a m)).setFlags (adcFlags s.flags s.a m) = adcState m s := by
  rw [adcFlags, setNZ_carry_overflow_eq, adcResult, adcSum_eq]
  rfl

/-- SBC writes A and the flags as `sbcState` does (42_arithmetic.md R183). -/
theorem setReg_setFlags_sbc (m : Byte) (s : State) :
    (s.setReg .a (sbcResult s.flags s.a m)).setFlags (sbcFlags s.flags s.a m) = sbcState m s := by
  rw [sbcFlags, setNZ_carry_overflow_eq, sbcResult, sbcDifference_eq]
  rfl

theorem adc_eq_adcState (m : Byte) (len : Nat) (s : State) :
    adc m len s = .next ((adcState m s).setPc (pcAfter (s.pc.toNat + len))) := by
  rw [adc_eq, setReg_setFlags_adc]

theorem sbc_eq_sbcState (m : Byte) (len : Nat) (s : State) :
    sbc m len s = .next ((sbcState m s).setPc (pcAfter (s.pc.toNat + len))) := by
  rw [sbc_eq, setReg_setFlags_sbc]

-- The statements; `adcResult` and `sbcResult` are the model's own names for the new accumulators

/-- Settles O27: both rows are the ADC class, at the immediate byte and at the cell. -/
theorem adcResult_holds : Obligations.AdcResult :=
  ⟨fun s v => adc_eq_adcState v 2 s, fun s ea => adc_eq_adcState (s.absOperand ea) 3 s⟩

/-- Settles O28: both rows are the SBC class, at the immediate byte and at the cell. -/
theorem sbcResult_holds : Obligations.SbcResult :=
  ⟨fun s v => sbc_eq_sbcState v 2 s, fun s ea => sbc_eq_sbcState (s.absOperand ea) 3 s⟩

end Sys2Proof.Machine
end

section
/-! PROOFS. The statements of the logical operations and the shifts (43_logical_shift.md): each row is an instance of its
class, and a shift's result is the one of the shifts' laws in plain arithmetic (`aslOf_eq` to `rorOf_eq`). -/

namespace Sys2Proof.Machine

section Shifts
variable {op : Bool → Byte → Byte × Bool} {s : State} {v r : Byte} {carry : Bool}

/-- Accumulator target (43_logical_shift.md R194). -/
theorem shiftAcc_of_eq (h : op s.flags.c s.a = (v, carry)) (hr : r = v) :
    shiftAcc op s = .next { s with a := r, flags := { nzFlags s.flags r with c := carry },
                                   pc := pcAfter (s.pc.toNat + 1) } := by
  rw [shiftAcc_eq, h, hr]
  rfl

/-- Absolute target (43_logical_shift.md R194). -/
theorem shiftMem_of_eq {ea : Word} (h : op s.flags.c (s.memRead ea) = (v, carry)) (hr : r = v) :
    shiftMem op ea s = .next { s with mem := s.mem.write ea.toNat r, flags := { nzFlags s.flags r with c := carry },
                                      pc := pcAfter (s.pc.toNat + 3) } := by
  rw [shiftMem_eq, h, hr]
  rfl

end Shifts

/-- Settles O30: each row is its shift in the accumulator or memory class, with the byte and the carry of the shift's
law. -/
theorem shiftResults : Obligations.ShiftResults :=
  ⟨fun _ _ hr => shiftAcc_of_eq (aslOf_eq _ _) hr, fun _ _ _ hr => shiftMem_of_eq (aslOf_eq _ _) hr,
    fun _ _ hr => shiftAcc_of_eq (lsrOf_eq _ _) hr, fun _ _ _ hr => shiftMem_of_eq (lsrOf_eq _ _) hr,
    fun _ _ hr => shiftAcc_of_eq (rolOf_eq _ _) hr, fun _ _ _ hr => shiftMem_of_eq (rolOf_eq _ _) hr,
    fun _ _ hr => shiftAcc_of_eq (rorOf_eq _ _) hr, fun _ _ _ hr => shiftMem_of_eq (rorOf_eq _ _) hr⟩

/-- Settles O29: each row is the logical class at its bitwise result, over the immediate byte or the cell. -/
theorem logicalResults : Obligations.LogicalResults :=
  ⟨fun s v => logical_eq (s.a &&& v) 2 s, fun s ea => logical_eq (s.a &&& s.absOperand ea) 3 s,
    fun s v => logical_eq (s.a ||| v) 2 s, fun s ea => logical_eq (s.a ||| s.absOperand ea) 3 s,
    fun s v => logical_eq (s.a ^^^ v) 2 s, fun s ea => logical_eq (s.a ^^^ s.absOperand ea) 3 s⟩

end Sys2Proof.Machine
end

section
/-! PROOFS. The statements of the increments, the compares and BIT (44_incdec_compare_bit.md): each row is an instance of
its class, with the byte law for plus or minus 1 and `comparedFlags` for a compare. -/

namespace Sys2Proof.Machine

/-- The increment and decrement class, with its result named (44_incdec_compare_bit.md R210). -/
theorem step8_of_eq {reg : Reg} {delta r : Byte} {s : State} (h : s.reg reg + delta = r) :
    step8 reg delta s = .next ((s.putNZ reg r).setPc (pcAfter (s.pc.toNat + 1))) := by
  rw [step8_eq, h]

/-- The compare class, with its flags from the unbounded difference (44_incdec_compare_bit.md R215). -/
theorem compareReg_eq_comparedFlags (reg : Reg) (m : Byte) (len : Nat) (s : State) :
    compareReg reg m len s =
      .next ((s.setFlags (comparedFlags s.flags (s.reg reg) m)).setPc (pcAfter (s.pc.toNat + len))) := by
  rw [compareReg_eq, compareFlags_eq]

/-- Settles O32: each row is the compare class at its register, over the immediate byte or the cell. -/
theorem compareResults : Obligations.CompareResults :=
  ⟨fun s v => compareReg_eq_comparedFlags .a v 2 s,
    fun s ea => compareReg_eq_comparedFlags .a (s.absOperand ea) 3 s,
    fun s v => compareReg_eq_comparedFlags .x v 2 s,
    fun s ea => compareReg_eq_comparedFlags .x (s.absOperand ea) 3 s,
    fun s v => compareReg_eq_comparedFlags .y v 2 s,
    fun s ea => compareReg_eq_comparedFlags .y (s.absOperand ea) 3 s⟩

/-- Settles O31: each row is the class at its register, with delta 1 or -1. -/
theorem incrementDecrementResults : Obligations.IncrementDecrementResults :=
  ⟨fun s _ hr => step8_of_eq (reg := .x) ((byte_add_one s.x).trans hr.symm),
    fun s _ hr => step8_of_eq (reg := .y) ((byte_add_one s.y).trans hr.symm),
    fun s _ hr => step8_of_eq (reg := .x) ((byte_add_neg_one s.x).trans hr.symm),
    fun s _ hr => step8_of_eq (reg := .y) ((byte_add_neg_one s.y).trans hr.symm)⟩

/-- Settles O33: BIT replaces the flags by `bitFlags` of A and the cell, then advances by its length. -/
theorem bitTestResult : Obligations.BitTestResult :=
  fun s ea => (s.setFlags (bitFlags s.flags s.a (s.absOperand ea))).advance_eq 3

end Sys2Proof.Machine
end

section
/-! PROOFS. The statements of the branches (45_branch.md): each row is the branch class at its condition, which finishes at
the next instruction or at the target, and the finalisation of R135 says the PC. -/

namespace Sys2Proof.Machine

section Rows

variable {p : (Byte → Instr) × (Flags → Bool)} {s : State}

theorem exec_branchTable_not_taken (hp : p ∈ branchTable) (hc : p.2 s.flags = false) (off : Byte) :
    exec (p.1 off) s = .next (s.setPc (pcAfter (s.pc.toNat + 2))) := by
  rw [exec_branchTable s off p hp, hc, branch_not_taken]

/-- A row whose condition holds finishes at the next instruction plus its offset (45_branch.md R230). -/
theorem exec_branchTable_taken (hp : p ∈ branchTable) (hc : p.2 s.flags = true) (off : Byte) :
    exec (p.1 off) s = s.finish ((s.pc.toNat : Int) + 2 + off.toInt) := by
  rw [exec_branchTable s off p hp, hc, branch_taken, signedOffset_eq_toInt]

end Rows

/-- Settles O34: a row not taken goes to the next instruction, and a row taken finishes at a target not below 0. -/
theorem branchResults : Obligations.BranchResults := by
  refine ⟨fun p hp s off hc => exec_branchTable_not_taken hp hc off, fun p hp s off hc h0 => ?_⟩
  exact (exec_branchTable_taken hp hc off).trans (s.finish_nonneg h0)

/-- Settles O35: a row taken finishes at its target, and O15 says each policy below 0. -/
theorem branchBelowZero : Obligations.BranchBelowZero := by
  intro p hp s off hc hn
  obtain ⟨_, _, hfault, hsentinel, hwrap⟩ := pcFinalisation s ((s.pc.toNat : Int) + 2 + off.toInt)
  rw [exec_branchTable_taken hp hc off]
  exact ⟨hfault hn, hsentinel hn, hwrap hn⟩

end Sys2Proof.Machine
end

section
/-! PROOFS. The statements of JMP, JSR and RTS (46_jump_call.md): each finishes at an address in memory, with the stack as
a push or a pull leaves it, and a pull after a push gives the pushed byte and S back. -/

namespace Sys2Proof.Machine

-- The three instructions as one update each

theorem State.finish_word (s : State) (w : Word) : s.finish w.toNat = .next (s.setPc w) := by
  rw [s.finish_nat, pcAfter_toNat]

/-- JSR pushes the low byte of its own address (46_jump_call.md R241). -/
theorem exec_jsr (target : Word) (s : State) :
    exec (.jsr target) s = .next ((s.push (lowByte s.pc)).setPc target) :=
  (s.push (lowByte s.pc)).finish_word target

/-- RTS goes to the pulled byte plus 3, which lies within memory for every byte (46_jump_call.md R242). -/
theorem exec_rts (s : State) :
    exec .rts s = .next (s.pulled.setPc (BitVec.ofNat 16 (s.pulledByte.toNat + 3))) := by
  have hb := s.pulledByte.isLt
  rw [← pcAfter_inside (by omega)]
  exact s.pulled.finish_nat (s.pulledByte.toNat + 3)

theorem lowByte_toNat (w : Word) : (lowByte w).toNat = w.toNat % 256 :=
  BitVec.extractLsb'_toNat 0 8 w

theorem lowByte_eq_ofNat (w : Word) : lowByte w = BitVec.ofNat 8 (w.toNat % 256) := by
  rw [← lowByte_toNat, BitVec.ofNat_toNat, BitVec.setWidth_eq]

-- A pull at a later state with S and the cell as the push left them (20_memory.md R55, R56)

section AfterPush
variable {s u : State} (hs : u.s = s.s - 1)
include hs

theorem State.pulled_s_of_push : u.pulled.s = s.s := by
  simp [hs]

theorem State.pulledByte_of_push {v : Byte}
    (hm : u.mem.read (0x0100 + s.s.toNat) = (s.push v).mem.read (0x0100 + s.s.toNat)) : u.pulledByte = v := by
  have hcell : stackAddr (u.s + 1) = stackAddr s.s := congrArg stackAddr (State.pulled_s_of_push hs)
  rw [State.pulledByte, State.memRead, hcell, stackAddr_toNat, hm, State.push_mem, stackAddr_toNat,
    Memory.read_write_same]

end AfterPush

-- The statements

/-- Settles O39: the matching RTS pulls what the JSR pushed, the low byte of p; it is p itself exactly below 0x0100. -/
theorem callThenReturn : Obligations.CallThenReturn := by
  intro s target
  refine ⟨_, exec_jsr target s, rfl, fun u hs hm => ⟨_, exec_rts u, State.pulled_s_of_push hs, ?_⟩⟩
  have hbyte : u.pulledByte.toNat = s.pc.toNat % 256 := by
    rw [State.pulledByte_of_push hs hm, lowByte_toNat]
  have hpc : (BitVec.ofNat 16 (u.pulledByte.toNat + 3)).toNat = s.pc.toNat % 256 + 3 := by
    rw [hbyte, BitVec.toNat_ofNat]
    omega
  rw [State.setPc_pc, hpc]
  omega

/-- Settles O36: the default map's row for JMP, the finish at a word, and the assembler run on the example. -/
theorem jumpResult : Obligations.JumpResult :=
  ⟨fun _ => rfl, fun s target => s.finish_word target, _, by rfl, by decide +kernel⟩

/-- Settles O37: the push of O5, at the low byte of the PC. -/
theorem callResult : Obligations.CallResult := by
  intro s target
  obtain ⟨hpush, -⟩ := stackPrimitives
  rw [exec_jsr, hpush, lowByte_eq_ofNat]
  rfl

/-- Settles O38: the pull of O5, and 3 more than the pulled byte. -/
theorem returnResult : Obligations.ReturnResult := by
  intro s
  obtain ⟨-, hpull⟩ := stackPrimitives
  obtain ⟨hpulled, hbyte⟩ := hpull s
  rw [exec_rts, hpulled, hbyte]
  rfl

end Sys2Proof.Machine
end

section
/-! PROOFS. The statements of flag control, the stack instructions and NOP (47_flag_stack_nop.md): each row is one update
of the state and an advance by 1, and a pull takes back what the push before it left. -/

namespace Sys2Proof.Machine

-- The four stack instructions as one update each

theorem exec_pha (s : State) : exec .pha s = .next ((s.push s.a).setPc (pcAfter (s.pc.toNat + 1))) :=
  (s.push s.a).advance_eq 1

theorem exec_php (s : State) : exec .php s = .next ((s.push s.flags.pack).setPc (pcAfter (s.pc.toNat + 1))) :=
  (s.push s.flags.pack).advance_eq 1

/-- PLA takes A from the stack, and the flags that `pla_sets_nz` says (47_flag_stack_nop.md R260). -/
theorem exec_pla_eq_next (s : State) :
    exec .pla s = .next (((s.pulled.setReg .a s.pulledByte).setFlags
      (if s.params.plaSetsNz then s.flags.setNZ s.pulledByte else s.flags)).setPc (pcAfter (s.pc.toNat + 1))) :=
  (exec_pla s).trans (State.advance_eq _ 1)

theorem exec_plp (s : State) :
    exec .plp s =
      .next ((s.pulled.setFlags (Flags.unpack s.pulledByte)).setPc (pcAfter (s.pc.toNat + 1))) :=
  (s.pulled.setFlags (Flags.unpack s.pulledByte)).advance_eq 1

-- The statements

/-- Settles O42: the pull reads the pushed byte back, and unpacking the packed flags gives them back. -/
theorem pushPullRestores : Obligations.PushPullRestores := by
  constructor
  · intro s
    refine ⟨_, exec_php s, fun u hs hm => ⟨_, exec_plp u, State.pulled_s_of_push hs, ?_⟩⟩
    exact (congrArg Flags.unpack (State.pulledByte_of_push hs hm)).trans s.flags.unpack_pack
  · intro s
    exact ⟨_, exec_pha s, fun u hs hm =>
      ⟨_, exec_pla_eq_next u, State.pulled_s_of_push hs, State.pulledByte_of_push hs hm⟩⟩

/-- Settles O40: each row is the flag class with its one flag replaced. -/
theorem flagControlResults : Obligations.FlagControlResults :=
  ⟨fun s => putFlags_eq { s.flags with c := false } s, fun s => putFlags_eq { s.flags with c := true } s,
    fun s => putFlags_eq { s.flags with i := false } s, fun s => putFlags_eq { s.flags with i := true } s,
    fun s => putFlags_eq { s.flags with v := false } s,
    fun s => putFlags_eq { s.flags with d := false } s, fun s => putFlags_eq { s.flags with d := true } s⟩

/-- Settles O41: the push and the pull of O5, with the update of each row. -/
theorem stackInstructionResults : Obligations.StackInstructionResults := by
  obtain ⟨hpush, hpull⟩ := stackPrimitives
  refine ⟨fun s => ?_, fun s => ?_, fun s v hv => ?_, fun s v hv => ?_⟩
  · rw [exec_pha, hpush]
    rfl
  · rw [exec_php, hpush]
    rfl
  · obtain ⟨hpulled, hbyte⟩ := hpull s
    rw [exec_pla_eq_next, hpulled, hbyte, ← hv]
    rfl
  · obtain ⟨hpulled, hbyte⟩ := hpull s
    rw [exec_plp, hpulled, hbyte, ← hv]
    rfl

/-- Settles O43: NOP is the advance by 1 itself. -/
theorem nopResult : Obligations.NopResult :=
  fun s => s.advance_eq 1

end Sys2Proof.Machine
end

section
/-! PROOFS. The statements of reset, of halted states and of the host's calls (70_reset_and_hazards.md): a step halts where
it changes nothing, which an instruction outside the sentinel does only as a jump or a branch to itself. -/

namespace Sys2Proof.Machine

-- When a step's change of the PC is no change (70_reset_and_hazards.md R303)

@[simp] theorem State.setPc_eq_self {s : State} {w : Word} : s.setPc w = s ↔ w = s.pc :=
  ⟨congrArg State.pc, fun h => h ▸ rfl⟩

theorem State.next_setPc_eq_next_self {s : State} {w : Word} :
    (.next (s.setPc w) : Result) = .next s ↔ w = s.pc := by
  rw [Host.Outcome.next.injEq, State.setPc_eq_self]

/-- Two states are equal when they have the same PC and agree in everything else. -/
theorem State.eq_iff_setPc {s t : State} (w : Word) : t = s ↔ t.pc = s.pc ∧ t.setPc w = s.setPc w := by
  constructor
  · rintro rfl
    exact ⟨rfl, rfl⟩
  · rintro ⟨hpc, h⟩
    calc t = (t.setPc w).setPc t.pc := rfl
      _ = (s.setPc w).setPc s.pc := by rw [h, hpc]

/-- Only the word itself finalises to a word that is not the sentinel. -/
theorem pcAfter_eq_iff {n : Nat} {w : Word} (hw : w ≠ 0xFFFE) : pcAfter n = w ↔ n = w.toNat := by
  refine ⟨fun h => ?_, fun h => h ▸ pcAfter_toNat w⟩
  by_cases hn : n < 65536
  · rw [← h, pcAfter_inside hn, BitVec.toNat_ofNat, Nat.mod_eq_of_lt hn]
  · exact absurd ((pcAfter_past (Nat.not_lt.mp hn)).symm.trans h).symm hw

section OutsideSentinel
variable {s : State} (hs : s.pc ≠ 0xFFFE)
include hs

/-- A finish less than a whole memory below the PC changes nothing exactly at the PC. -/
theorem State.finish_eq_next_self {npc : Int} (hlo : (s.pc.toNat : Int) - 65536 < npc) :
    s.finish npc = .next s ↔ npc = s.pc.toNat := by
  by_cases h0 : 0 ≤ npc
  · rw [s.finish_nonneg h0, State.next_setPc_eq_next_self, pcAfter_eq_iff hs]
    omega
  · rw [s.finish_negative (Int.not_le.mp h0)]
    have hne : npc ≠ s.pc.toNat := by omega
    cases s.params.pcNegativePolicy with
    | fault => simp [hne]
    | sentinel => exact iff_of_false (fun h => hs (State.next_setPc_eq_next_self.mp h).symm) hne
    | wrap =>
      refine iff_of_false (fun h => ?_) hne
      have hpc := congrArg BitVec.toNat (State.next_setPc_eq_next_self.mp h)
      rw [BitVec.toNat_ofInt] at hpc
      omega

/-- A taken branch changes nothing exactly with the offset byte of -2. -/
theorem exec_takenBranch_eq_next_self {i : Instr} {off : Byte} (h : takenBranch s.flags off i) :
    exec i s = .next s ↔ off = 0xFE := by
  have hlo := off.le_toInt
  have hpc := s.pc.isLt
  rw [exec_takenBranch h, branch_taken, signedOffset_eq_toInt, State.finish_eq_next_self hs (by omega),
    ← BitVec.toInt_inj, show (0xFE : Byte).toInt = -2 from rfl]
  omega

end OutsideSentinel

-- Instructions that never halt a state (70_reset_and_hazards.md R303)

/-- The pushes and pulls, JSR and RTS move S by 1, the increments and decrements X or Y. -/
theorem exec_moves_reg {i : Instr}
    (hi : i.mnemonic ∈ [Mnemonic.jsr, .rts, .pha, .pla, .php, .plp, .inx, .iny, .dex, .dey]) (s : State) :
    ∃ (u : State) (npc : Int) (r : Reg), exec i s = u.finish npc ∧ u.reg r ≠ s.reg r := by
  have plus (b : Byte) {d : Byte} (hd : d ≠ 0) : b + d ≠ b := add_ne_left.mpr hd
  have minus (b : Byte) {d : Byte} (hd : d ≠ 0) : b - d ≠ b := mt sub_eq_self.mp hd
  cases i with
  | jsr _ | pha | php => exact ⟨_, _, .s, rfl, minus s.s (by decide)⟩
  | rts | plp => exact ⟨_, _, .s, rfl, plus s.s (by decide)⟩
  | pla => exact ⟨_, _, .s, exec_pla s, plus s.s (by decide)⟩
  | inx | dex => exact ⟨_, _, .x, rfl, plus s.x (by decide)⟩
  | iny | dey => exact ⟨_, _, .y, rfl, plus s.y (by decide)⟩
  | _ => simp [Instr.mnemonic] at hi

theorem exec_changes_reg {i : Instr} {s t : State} (h : exec i s = .next t)
    (hi : i.mnemonic ∈ [Mnemonic.jsr, .rts, .pha, .pla, .php, .plp, .inx, .iny, .dex, .dey]) :
    ∃ r, t.reg r ≠ s.reg r := by
  obtain ⟨u, npc, r, he, hr⟩ := exec_moves_reg hi s
  obtain ⟨w, rfl⟩ := State.of_finish (he.symm.trans h)
  exact ⟨r, by cases r <;> exact hr⟩

/-- Outside the sentinel an instruction changes nothing exactly as a jump or a taken branch to itself: by its shape, every
other instruction moves the PC past itself or moves S. -/
theorem exec_eq_next_self {i : Instr} {s : State} (hs : s.pc ≠ 0xFFFE) :
    exec i s = .next s ↔ i = .jmp s.pc ∨ takenBranch s.flags 0xFE i := by
  constructor
  · intro h
    rcases exec_shape i s with ⟨t, ht, hpc⟩ | ⟨w, rfl⟩ | ⟨w, rfl⟩ | rfl | ⟨p, hp, off, rfl⟩
    · rw [ht, State.advance_eq, hpc] at h
      have hnext := congrArg State.pc (Host.Outcome.next.inj h)
      exact absurd hnext (pcAfter_add_ne i.mode.length_pos i.mode.length_le hs)
    · exact .inl (congrArg Instr.jmp (State.next_setPc_eq_next_self.mp ((s.finish_word w).symm.trans h)))
    · obtain ⟨r, hr⟩ := exec_changes_reg h (by simp [Instr.mnemonic])
      exact absurd rfl hr
    · obtain ⟨r, hr⟩ := exec_changes_reg h (by simp [Instr.mnemonic])
      exact absurd rfl hr
    · cases hc : p.2 s.flags with
      | false =>
        rw [exec_branchTable_not_taken hp hc, State.next_setPc_eq_next_self] at h
        exact absurd h (pcAfter_add_ne (by decide) (by decide) hs)
      | true =>
        have hb : takenBranch s.flags off (p.1 off) := ⟨p, hp, rfl, hc⟩
        exact .inr ((exec_takenBranch_eq_next_self hs hb).mp h ▸ hb)
  · rintro (rfl | hb)
    · exact s.finish_word s.pc
    · exact (exec_takenBranch_eq_next_self hs hb).mpr rfl

/-- At the sentinel a state is halted by what stands at the vector: no instruction, with the address after it the sentinel,
or an instruction that comes back to the state. -/
theorem State.halted_at_sentinel_iff {s : State} (hs : s.pc = 0xFFFE) :
    s.halted = true ↔
      ((∃ e, instrAt s (vectorWord s) = .error e) ∧
        pcAfter ((vectorWord s).toNat + s.params.unrecognisedOpcodeAdvance.val) = 0xFFFE) ∨
      ∃ i, instrAt s (vectorWord s) = .ok i ∧ exec i (s.setPc (vectorWord s)) = .next s := by
  have hhand := State.handshake_of_sentinel hs
  rw [State.halted_iff]
  cases hd : instrAt s (vectorWord s) with
  | error e => simp [step_of_unrecognised hhand hd, hs]
  | ok i => simp [step_of_instrAt hhand hd]

-- The host's calls (70_reset_and_hazards.md R295)

theorem Session.assembleCall_of_completed {c : Session} {src : Text} {t : State} {rs : List Report}
    (h : assemble src c.state = .completed t rs) : c.assembleCall src = (⟨t, none⟩, .completed rs) := by
  rw [Session.assembleCall, h]

theorem Session.assembleCall_of_refused {c : Session} {src : Text} {f : Fault} {rs : List Report}
    (h : assemble src c.state = .refused f rs) :
    c.assembleCall src = (⟨State.resetWith c.state.params, some f⟩, .refused rs) := by
  rw [Session.assembleCall, h]

/-- A completed assembly leaves the form of a state between calls. -/
theorem assemble_completed_wf {src : Text} {s t : State} {rs : List Report} (hmap : s.params.wf = true)
    (h : assemble src s = .completed t rs) : t.wf ∧ t.params = s.params := by
  obtain ⟨hcompleted, -⟩ := assemblyLeavesResetState
  obtain ⟨ht, hmem, -⟩ := hcompleted src s t rs h
  have hparams : t.params = s.params := (congrArg State.params ht).trans rfl
  exact ⟨⟨hmem, hparams ▸ hmap, (congrArg State.asm ht).trans rfl⟩, hparams⟩

/-- A step keeps the form of a state between calls. -/
theorem step_next_wf {s t : State} (hs : s.wf) (h : step s = .next t) : t.wf ∧ t.params = s.params := by
  obtain ⟨hparams, -⟩ := stepKeepsParametersAndAssembler s t h
  exact ⟨stepKeepsInvariant s t hs h, hparams⟩

theorem step_not_refused (s : State) (r : Refusal) : step s ≠ .refused r := by
  rcases stepIsNeverRefused s with ⟨t, h⟩ | h <;> rw [h] <;> nofun

-- The statements

/-- Settles O45: what stands at the PC is no instruction, and the step goes on by the advance, or it is one that changes
nothing (`exec_eq_next_self`). -/
theorem haltedStatesAreExactlyThree : Obligations.HaltedStatesAreExactlyThree := by
  intro s hs
  have hhand : s.handshake = s.setPc s.pc := State.handshake_of_ne hs
  cases hd : instrAt s s.pc with
  | error e =>
    rw [step_of_unrecognised hhand hd, State.next_setPc_eq_next_self, pcAfter_eq_iff hs]
    simp
  | ok i =>
    have hstep : step s = exec i s := step_of_instrAt hhand hd
    simp [hstep, exec_eq_next_self hs]

/-- Settles O46: by `State.halted_at_sentinel_iff`; the named halted states are instances of it, and an instruction that
changes a register does not come back to the state. -/
theorem haltedAtSentinel : Obligations.HaltedAtSentinel := by
  intro s hs
  have hiff := State.halted_at_sentinel_iff hs
  refine ⟨hiff.trans ?exactly, fun hjmp => ?jump, fun hv he h0 => ?noInstr, fun i hi hm => ?never⟩
  case exactly =>
    refine or_congr_right (exists_congr fun i => ⟨?_, ?_⟩)
    · rintro ⟨hi, h⟩
      exact ⟨s, hi, h, hs, rfl⟩
    · rintro ⟨t, hi, h, hpc, hrest⟩
      have ht : t = s := (State.eq_iff_setPc (vectorWord s)).mpr ⟨hpc.trans hs.symm, hrest⟩
      exact ⟨hi, ht ▸ h⟩
  case jump =>
    refine hiff.mpr (.inr ⟨_, hjmp, ?_⟩)
    rw [← hs]
    exact (s.setPc (vectorWord s)).finish_word s.pc
  case noInstr =>
    refine hiff.mpr (.inl ⟨hv ▸ he, ?_⟩)
    rw [hv, h0]
    exact pcAfter_toNat 0xFFFE
  case never =>
    refine Bool.eq_false_iff.mpr fun h => ?_
    rw [State.halted_iff, step_of_instrAt (State.handshake_of_sentinel hs) hi] at h
    obtain ⟨r, hr⟩ := exec_changes_reg h hm
    exact hr (by cases r <;> rfl)

/-- Settles O58: each call by the outcome of its assembly or its step; an assembly forgets the machine (O49), and a
refused one has the fault of O48. -/
theorem hostCallOutcomes : Obligations.HostCallOutcomes := by
  refine ⟨fun c src t rs h => Session.assembleCall_of_completed h, fun c src f rs h => ?_, fun c d src h => ?_,
    fun c t hf h => ?_, fun c f hf h => ?_, fun c f hf => ?_⟩
  · obtain ⟨-, rfl⟩ := assemble_eq_refused.mp h
    rw [Session.call, Session.assembleCall_of_refused h]
    exact ⟨rfl, rfl, rfl⟩
  · simp only [Session.call, Session.assembleCall, assemblyForgetsTheMachine src c.state d.state h, h]
  · simp only [Session.call, Session.stepCall, hf, h]
  · simp only [Session.call, Session.stepCall, hf, h]
  · simp only [Session.call, Session.stepCall, hf]

/-- Settles O59: each outcome of each call. An assembly leaves the reset state but for memory (O48), a step keeps the
invariant (O18), and no step is refused (O16). -/
theorem hostCallsKeepInvariant : Obligations.HostCallsKeepInvariant := by
  intro c h hwf
  cases h with
  | assemble src =>
    obtain ⟨-, hmap, -⟩ := hwf
    rcases c.assembleCall_cases src with ⟨t, rs, ha, hcall⟩ | ⟨f, rs, -, hcall⟩ <;> rw [Session.call, hcall]
    · obtain ⟨ht, hp⟩ := assemble_completed_wf hmap ha
      exact ⟨ht, hp, nofun⟩
    · obtain ⟨-, hreset⟩ := resetMeetsInvariant
      exact ⟨hreset _ hmap, rfl, nofun⟩
  | step =>
    rcases c.stepCall_cases with ⟨t, -, hs, hcall⟩ | ⟨f, -, hcall⟩ | ⟨f, -, -, hcall⟩ | ⟨r, -, hs, -⟩
    · rw [Session.call, hcall]
      obtain ⟨ht, hp⟩ := step_next_wf hwf hs
      exact ⟨ht, hp, nofun⟩
    · rw [Session.call, hcall]
      exact ⟨hwf, rfl, nofun⟩
    · rw [Session.call, hcall]
      exact ⟨hwf, rfl, nofun⟩
    · exact absurd hs (step_not_refused c.state r)

/-- Settles O1: the reset memory lists no cell, and every other field is the stated one. -/
theorem resetState : Obligations.ResetState :=
  ⟨fun _ => ⟨fun _ _ => rfl, rfl, rfl, rfl, rfl, fun k => by cases k <;> rfl, rfl, rfl, rfl, rfl⟩, rfl⟩

end Sys2Proof.Machine
end
